-- ==== Sys2Proof/Word.lean ====
section
/-!
DEFINITION. The two word types of the daVM core (00_scope.md R6): a 16-bit word and an 8-bit byte.
Everything computed on them stands in Decode.lean and under Machine/.
-/

namespace Sys2Proof

/-- "a 16-bit unit of data or address" (00_scope.md R6). -/
abbrev Word := BitVec 16

/-- One byte of the memory (10_state.md R32). -/
abbrev Byte := BitVec 8

end Sys2Proof
end

