-- ==== Sys2Proof/Syntax.lean ====
section
/-!
DEFINITION. The instructions of the daVM core as data: one constructor of `Instr` per row of
spec/opcode_table.json (30_encoding.md R52-R62, R71). An instruction is its one instruction word; extension
words are fetched while it runs (40_operand_resolver.md R72), so they are no part of it.
-/

namespace Sys2Proof

/-- A register number, 0 to 15 (10_state.md R15). -/
abbrev Reg := Fin 16

/-- R0, the program counter (10_state.md R15, R18). -/
abbrev Reg.pc : Reg := 0
/-- R1, the stack pointer (10_state.md R15, R22). -/
abbrev Reg.sp : Reg := 1
/-- R2, the status register and first constant generator (10_state.md R15, R23). -/
abbrev Reg.sr : Reg := 2
/-- R3, the second constant generator (10_state.md R15, R30). -/
abbrev Reg.cg : Reg := 3

/-- Operand width (00_scope.md R6, R10; 30_encoding.md R54). -/
inductive Width where
  | word
  | byte
  deriving DecidableEq, Repr

/-- The four addressing modes of a 2-bit mode field (40_operand_resolver.md R76-R79). -/
inductive Mode where
  | register
  | indexed
  | indirect
  | postInc
  deriving DecidableEq, Repr

/-- The two addressing modes the 1-bit Ad field can name (30_encoding.md R52, R63). -/
inductive DstMode where
  | register
  | indexed
  deriving DecidableEq, Repr

/-- Operand roles of the resolver (40_operand_resolver.md R72). -/
inductive Role where
  | src
  | dst
  deriving DecidableEq, Repr

/-- One instruction word, classified and taken apart (30_encoding.md R58). The last eleven constructors are the
words that fault at decode (30_encoding.md R71); `bits` are the bits the table row leaves open. -/
inductive Instr where
  /-- 42_binary.md R108. -/
  | mov (sreg : Reg) (as : Mode) (bw : Width) (ad : DstMode) (dreg : Reg)
  /-- 42_binary.md R109. -/
  | add (sreg : Reg) (as : Mode) (bw : Width) (ad : DstMode) (dreg : Reg)
  /-- 42_binary.md R110. -/
  | addc (sreg : Reg) (as : Mode) (bw : Width) (ad : DstMode) (dreg : Reg)
  /-- 42_binary.md R111. -/
  | subc (sreg : Reg) (as : Mode) (bw : Width) (ad : DstMode) (dreg : Reg)
  /-- 42_binary.md R112. -/
  | sub (sreg : Reg) (as : Mode) (bw : Width) (ad : DstMode) (dreg : Reg)
  /-- 42_binary.md R113. -/
  | cmp (sreg : Reg) (as : Mode) (bw : Width) (ad : DstMode) (dreg : Reg)
  /-- 43_unary.md R118. -/
  | rrc (bw : Width) (as : Mode) (reg : Reg)
  /-- 43_unary.md R119; well formed only with `bw = word` (30_encoding.md R62). -/
  | swpb (bw : Width) (as : Mode) (reg : Reg)
  /-- 43_unary.md R120. -/
  | rra (bw : Width) (as : Mode) (reg : Reg)
  /-- 43_unary.md R121; well formed only with `bw = word` (30_encoding.md R62). -/
  | sxt (bw : Width) (as : Mode) (reg : Reg)
  /-- 43_unary.md R122-R124. -/
  | push (bw : Width) (as : Mode) (reg : Reg)
  /-- 43_unary.md R125; well formed only with `bw = word` (30_encoding.md R62). -/
  | call (bw : Width) (as : Mode) (reg : Reg)
  /-- 0x0000-0x0FFF, unclassified (30_encoding.md R57). -/
  | unclassified0000 (bits : BitVec 12)
  /-- 0x1400-0x17FF, unclassified (30_encoding.md R57). -/
  | unclassified1400 (bits : BitVec 10)
  /-- 0x1800-0x1FFF, unclassified (30_encoding.md R57). -/
  | unclassified1800 (bits : BitVec 11)
  /-- 0x2000-0x3FFF, unclassified; the jump family is not placed (30_encoding.md R57, R61). -/
  | unclassified2000 (bits : BitVec 13)
  /-- 0x1300-0x137F, a unary opcode without a handler (30_encoding.md R60). -/
  | unaryUop6 (bits : BitVec 7)
  /-- 0x1380-0x13FF, a unary opcode without a handler (30_encoding.md R60). -/
  | unaryUop7 (bits : BitVec 7)
  /-- 0x10C0-0x10FF, the byte form SWPB does not have (30_encoding.md R62). -/
  | swpbByte (as : Mode) (reg : Reg)
  /-- 0x11C0-0x11FF, the byte form of SXT the source does not define (30_encoding.md R62). -/
  | sxtByte (as : Mode) (reg : Reg)
  /-- 0x12C0-0x12FF, the byte form of CALL the source does not define (30_encoding.md R62). -/
  | callByte (as : Mode) (reg : Reg)
  /-- 0xA000-0xBFFF, binary opcodes without a handler (30_encoding.md R59). -/
  | binaryOpAB (bits : BitVec 13)
  /-- 0xC000-0xFFFF, binary opcodes without a handler (30_encoding.md R59). -/
  | binaryOpCF (bits : BitVec 14)
  deriving DecidableEq, Repr

end Sys2Proof
end

