-- ==== Sys2Proof/WellFormed.lean ====
section
/-!
DEFINITION. Which terms of `Instr` some instruction word decodes to. Every operand field is legal at every value
(30_encoding.md R63); the one thing a word cannot say is a byte form of SWPB, SXT or CALL, since those words are
the fault rows `swpbByte`, `sxtByte` and `callByte` (30_encoding.md R62).
-/

namespace Sys2Proof

/-- The byte-form checks, which are part of decoding (30_encoding.md R62). -/
def Instr.wellFormed : Instr → Bool
  | .swpb bw _ _ => bw == .word
  | .sxt bw _ _ => bw == .word
  | .call bw _ _ => bw == .word
  | .mov _ _ _ _ _ | .add _ _ _ _ _ | .addc _ _ _ _ _ | .subc _ _ _ _ _ | .sub _ _ _ _ _ | .cmp _ _ _ _ _ => true
  | .rrc _ _ _ | .rra _ _ _ | .push _ _ _ => true
  | .unclassified0000 _ | .unclassified1400 _ | .unclassified1800 _ | .unclassified2000 _ => true
  | .unaryUop6 _ | .unaryUop7 _ | .swpbByte _ _ | .sxtByte _ _ | .callByte _ _ => true
  | .binaryOpAB _ | .binaryOpCF _ => true

/-- `Instr.wellFormed` as a proposition that `decide` settles. -/
abbrev Instr.WellFormed (i : Instr) : Prop := i.wellFormed = true

end Sys2Proof
end

