-- ==== Sys2Proof/Decode.lean ====
section
/-!
DEFINITION. The decoder (30_encoding.md R52-R62) and, after it, the encoder written from the same tables.
Every 16-bit word decodes to a constructor, the faulting words to constructors of their own, so the only bytes
refused are too few of them (`DecodeError.truncated`).
The byte-order and field helpers used by the rest of the model stand here too.
-/

namespace Sys2Proof

/-! ## Bytes of a word (20_memory.md R37) -/

/-- `v[7:0]`. -/
def lowByte (v : Word) : Byte := v.extractLsb' 0 8

/-- `v[15:8]`. -/
def highByte (v : Word) : Byte := v.extractLsb' 8 8

/-- The word with the given low and high byte. -/
def wordOfBytes (low high : Byte) : Word := high ++ low

/-- `zext_16` (00_scope.md R10). -/
def zext16 (b : Byte) : Word := b.setWidth 16

/-- `sext_16` (00_scope.md R10). -/
def sext16 (b : Byte) : Word := b.signExtend 16

/-! ## Fields -/

/-- As, two bits (30_encoding.md R52, R53; 40_operand_resolver.md R76-R79). -/
def Mode.ofBits (b : BitVec 2) : Mode :=
  match b.toNat with
  | 0 => .register
  | 1 => .indexed
  | 2 => .indirect
  | _ => .postInc

/-- The bits of an As field. -/
def Mode.toBits : Mode → BitVec 2
  | .register => 0
  | .indexed => 1
  | .indirect => 2
  | .postInc => 3

/-- BW, one bit: 1 selects byte width (30_encoding.md R54). -/
def Width.ofBits (b : BitVec 1) : Width :=
  match b.toNat with
  | 0 => .word
  | _ => .byte

/-- The bit of a BW field. -/
def Width.toBits : Width → BitVec 1
  | .word => 0
  | .byte => 1

/-- Ad, one bit (30_encoding.md R52). -/
def DstMode.ofBits (b : BitVec 1) : DstMode :=
  match b.toNat with
  | 0 => .register
  | _ => .indexed

/-- The bit of an Ad field. -/
def DstMode.toBits : DstMode → BitVec 1
  | .register => 0
  | .indexed => 1

/-- A register field, four bits (30_encoding.md R52, R53). -/
def Reg.ofBits (b : BitVec 4) : Reg := b.toFin

/-- The bits of a register field. -/
def Reg.toBits (r : Reg) : BitVec 4 := BitVec.ofFin r

/-- The five fields of the binary format, `oooo ssss aa b m dddd` (30_encoding.md R52), given to a constructor. -/
def binaryFields (mk : Reg → Mode → Width → DstMode → Reg → Instr) (w : Word) : Instr :=
  mk (Reg.ofBits (w.extractLsb' 8 4)) (Mode.ofBits (w.extractLsb' 6 2)) (Width.ofBits (w.extractLsb' 5 1))
    (DstMode.ofBits (w.extractLsb' 4 1)) (Reg.ofBits (w.extractLsb' 0 4))

/-- The three fields of the unary format, `000100 ooo b aa rrrr` (30_encoding.md R53), given to a constructor. -/
def unaryFields (mk : Width → Mode → Reg → Instr) (w : Word) : Instr :=
  mk (Width.ofBits (w.extractLsb' 6 1)) (Mode.ofBits (w.extractLsb' 4 2)) (Reg.ofBits (w.extractLsb' 0 4))

/-- The fields of a unary word whose byte form faults: `byteForm` when BW = 1 (30_encoding.md R62). -/
def wordOnlyFields (mk : Width → Mode → Reg → Instr) (byteForm : Mode → Reg → Instr) (w : Word) : Instr :=
  unaryFields (fun bw as reg =>
    match bw with
    | .word => mk .word as reg
    | .byte => byteForm as reg) w

/-! ## The decoder -/

/-- The binary dispatch table (30_encoding.md R56, R59), for a word whose bits 15:12 are 4 or more. -/
def decodeBinary (w : Word) : Instr :=
  match (w.extractLsb' 12 4).toNat with
  | 4 => binaryFields .mov w
  | 5 => binaryFields .add w
  | 6 => binaryFields .addc w
  | 7 => binaryFields .subc w
  | 8 => binaryFields .sub w
  | 9 => binaryFields .cmp w
  | 10 | 11 => .binaryOpAB (w.extractLsb' 0 13)
  | _ => .binaryOpCF (w.extractLsb' 0 14)

/-- The unary dispatch table (30_encoding.md R55, R60, R62), for a word whose tag is 0b000100. -/
def decodeUnary (w : Word) : Instr :=
  match (w.extractLsb' 7 3).toNat with
  | 0 => unaryFields .rrc w
  | 1 => wordOnlyFields .swpb .swpbByte w
  | 2 => unaryFields .rra w
  | 3 => wordOnlyFields .sxt .sxtByte w
  | 4 => unaryFields .push w
  | 5 => wordOnlyFields .call .callByte w
  | 6 => .unaryUop6 (w.extractLsb' 0 7)
  | _ => .unaryUop7 (w.extractLsb' 0 7)

/-- The words of neither family (30_encoding.md R57), by row of the table. -/
def decodeUnclassified (w : Word) : Instr :=
  match (w.extractLsb' 12 4).toNat with
  | 0 => .unclassified0000 (w.extractLsb' 0 12)
  | 1 => if w.getLsbD 11 then .unclassified1800 (w.extractLsb' 0 11) else .unclassified1400 (w.extractLsb' 0 10)
  | _ => .unclassified2000 (w.extractLsb' 0 13)

/-- The classifier (30_encoding.md R55-R58): it reads only the word. -/
def decodeWord (w : Word) : Instr :=
  if 4 ≤ (w.extractLsb' 12 4).toNat then decodeBinary w
  else if w.extractLsb' 10 6 = 0b000100#6 then decodeUnary w
  else decodeUnclassified w

/-- Why bytes are refused by the decoder. -/
inductive DecodeError where
  /-- Fewer than the two bytes of an instruction word. The machine never meets it: memory has every byte. -/
  | truncated
  deriving DecidableEq, Repr

/-- The decoder on bytes: an instruction word is stored low byte first (30_encoding.md R67). It answers the bytes
after the instruction word, where the extension words stand. -/
def decode : List Byte → Except DecodeError (Instr × List Byte)
  | low :: high :: rest => .ok (decodeWord (wordOfBytes low high), rest)
  | [_] => .error .truncated
  | [] => .error .truncated

/-! ## The encoder -/

/-- A binary word with opcode `op` (30_encoding.md R52). -/
def binaryWord (op : BitVec 4) (sreg : Reg) (as : Mode) (bw : Width) (ad : DstMode) (dreg : Reg) : Word :=
  op ++ sreg.toBits ++ as.toBits ++ bw.toBits ++ ad.toBits ++ dreg.toBits

/-- A unary word with opcode `uop` (30_encoding.md R53, R55). -/
def unaryWord (uop : BitVec 3) (bw : Width) (as : Mode) (reg : Reg) : Word :=
  0b000100#6 ++ uop ++ bw.toBits ++ as.toBits ++ reg.toBits

/-- The instruction word of an instruction (30_encoding.md R52-R60, R71). -/
def encodeWord : Instr → Word
  | .mov sreg as bw ad dreg => binaryWord 0x4 sreg as bw ad dreg
  | .add sreg as bw ad dreg => binaryWord 0x5 sreg as bw ad dreg
  | .addc sreg as bw ad dreg => binaryWord 0x6 sreg as bw ad dreg
  | .subc sreg as bw ad dreg => binaryWord 0x7 sreg as bw ad dreg
  | .sub sreg as bw ad dreg => binaryWord 0x8 sreg as bw ad dreg
  | .cmp sreg as bw ad dreg => binaryWord 0x9 sreg as bw ad dreg
  | .rrc bw as reg => unaryWord 0 bw as reg
  | .swpb bw as reg => unaryWord 1 bw as reg
  | .rra bw as reg => unaryWord 2 bw as reg
  | .sxt bw as reg => unaryWord 3 bw as reg
  | .push bw as reg => unaryWord 4 bw as reg
  | .call bw as reg => unaryWord 5 bw as reg
  | .unclassified0000 bits => 0b0000#4 ++ bits
  | .unclassified1400 bits => 0b000101#6 ++ bits
  | .unclassified1800 bits => 0b00011#5 ++ bits
  | .unclassified2000 bits => 0b001#3 ++ bits
  | .unaryUop6 bits => 0b000100110#9 ++ bits
  | .unaryUop7 bits => 0b000100111#9 ++ bits
  | .swpbByte as reg => unaryWord 1 .byte as reg
  | .sxtByte as reg => unaryWord 3 .byte as reg
  | .callByte as reg => unaryWord 5 .byte as reg
  | .binaryOpAB bits => 0b101#3 ++ bits
  | .binaryOpCF bits => 0b11#2 ++ bits

/-- The encoder on bytes (30_encoding.md R67). -/
def encode (i : Instr) : List Byte := [lowByte (encodeWord i), highByte (encodeWord i)]

/-- How many extension words a source operand takes (30_encoding.md R64). -/
def srcExtWords (as : Mode) (reg : Reg) : Nat :=
  match as with
  | .indexed => if reg = Reg.cg then 0 else 1
  | .postInc => if reg = Reg.pc then 1 else 0
  | .register | .indirect => 0

/-- How many extension words a destination operand takes (30_encoding.md R64). -/
def dstExtWords : DstMode → Nat
  | .register => 0
  | .indexed => 1

/-- An instruction's length in bytes, extension words included (30_encoding.md R65); a word that faults at decode
is its own two bytes. -/
def Instr.length : Instr → Nat
  | .mov sreg as _ ad _ | .add sreg as _ ad _ | .addc sreg as _ ad _ | .subc sreg as _ ad _ | .sub sreg as _ ad _
  | .cmp sreg as _ ad _ => 2 * (1 + srcExtWords as sreg + dstExtWords ad)
  | .rrc _ as reg | .swpb _ as reg | .rra _ as reg | .sxt _ as reg | .push _ as reg | .call _ as reg =>
    2 * (1 + srcExtWords as reg)
  | .unclassified0000 _ | .unclassified1400 _ | .unclassified1800 _ | .unclassified2000 _ => 2
  | .unaryUop6 _ | .unaryUop7 _ | .swpbByte _ _ | .sxtByte _ _ | .callByte _ _ => 2
  | .binaryOpAB _ | .binaryOpCF _ => 2

/-! ## The host's numbering of an instruction's bits -/

/-- The six bytes, the longest instruction (30_encoding.md R65), that hold the low `nbits` bits of `w` from the
lowest address up; every bit above is 0. With 16-bit little-endian words (30_encoding.md R67) this is the words one
after another, bit 0 the least significant bit of the first. -/
def tableBytes (nbits w : Nat) : List Byte :=
  let v := w % 2 ^ nbits
  [BitVec.ofNat 8 v, BitVec.ofNat 8 (v / 2 ^ 8), BitVec.ofNat 8 (v / 2 ^ 16),
   BitVec.ofNat 8 (v / 2 ^ 24), BitVec.ofNat 8 (v / 2 ^ 32), BitVec.ofNat 8 (v / 2 ^ 40)]

/-- The instruction the decoder reads from the bits `w` of an opcode-table row of `nbits` bits. -/
def decodeTableWord (nbits w : Nat) : Option Instr :=
  match decode (tableBytes nbits w) with
  | .ok (i, _) => some i
  | .error _ => none

end Sys2Proof
end

