-- ==== Sys2Proof/Config.lean ====
section
/-!
DEFINITION. What the spec leaves to an instance of the core, and the one free value.
CODE_START and STACK_START are OPEN parameters (00_scope.md R7): `Machine.State.construct` takes them as
arguments, and only `Machine.State.reset` uses the two values named here.
-/

namespace Sys2Proof

/-- The CODE_START of `State.reset`: the spec's example instance (92_eei_decisions.md D3, 95_test_vectors.md
part 0). DESIGN CHOICE, unsafe, log entry 1: the spec leaves the value open. -/
def Config.codeStart : Word := 0xC000

/-- The STACK_START of `State.reset`: the spec's example instance (92_eei_decisions.md D4, 95_test_vectors.md
part 0). DESIGN CHOICE, unsafe, log entry 2: the spec leaves the value open. -/
def Config.stackStart : Word := 0x0400

/-- The value R3-R15 hold in `State.reset`. DESIGN CHOICE, unsafe, log entry 3: the construction of
10_state.md R35 gives them none, and a launch state may assign them (70_reset_and_hazards.md R158). -/
def Config.launchValue : Word := 0x0000

/-- What a byte that no entry of the memory list names reads as: construction zero-fills the memory
(10_state.md R35, 70_reset_and_hazards.md R148). -/
def Config.unlistedByte : Byte := 0x00

/-- `draw8()` of 43_unary.md R124: the n-th drawn byte, unconstrained. It has no body, so no proof can know
a value of it. DESIGN CHOICE (the form), safe, log entry 4. -/
opaque Config.draw8 : Nat → Byte

end Sys2Proof
end

