-- ==== Sys2Proof/Machine/State.lean ====
section
/-!
DEFINITION. The state of the daVM core (10_state.md R15-R35) as plain data, the reasons a step can stop
(60_exceptions.md R130-R135), and the states the core starts from (70_reset_and_hazards.md R148, R158).
-/

namespace Sys2Proof.Machine

open Sys2Proof

/-- The architectural state (10_state.md R15, R17, R32, R34) and the model's own draw counter. -/
structure State where
  /-- R0-R15 (10_state.md R15, R16). R0 is the PC, R1 the SP, R2 the SR with the flags. -/
  regs : Vector Word 16
  /-- The written mark of each register (10_state.md R17). -/
  written : Vector Bool 16
  /-- The bytes that differ from `Config.unlistedByte`, by rising address (10_state.md R32). -/
  mem : List Host.Cell
  /-- How many bytes `draw8()` has given so far (43_unary.md R124): the model's own field. -/
  draws : Nat
  deriving DecidableEq, Repr

/-- What every fault report names of the instruction: its address A and its word (60_exceptions.md R135). -/
structure Site where
  pc : Word
  word : Word
  deriving DecidableEq, Repr

/-- The fault reports (60_exceptions.md R130-R135). All are safe: each is a stop the spec itself gives, and the
instruction has no effect (R134). -/
inductive Fault where
  /-- Kind 1 (R131): raised by `resolve` for a destination-role mode outside 0 and 1. No instruction word raises it
  (30_encoding.md R63). Safe. -/
  | unsupportedAddressingMode (site : Site) (role : Role) (mode : Mode)
  /-- Kind 2 (R132): raised by the meanings of the words that have no handler. Safe. -/
  | unimplementedOpcode (site : Site)
  /-- Kind 3, reason 1 (R133): raised by a read of a register without a written mark (10_state.md R17). Safe. -/
  | uninitializedRegister (site : Site) (reg : Reg)
  /-- Kind 3, reason 2 (R133): raised by a fetch at an odd PC (30_encoding.md R51); no word is read. Safe. -/
  | misalignedFetch (pc : Word)
  /-- Kind 3, reason 3 (R133): raised by a word access at 0xFFFF (20_memory.md R38). Safe. -/
  | wordAccessAtTop (site : Site) (addr : Word)
  /-- Kind 3, reason 4 (R133): raised by a write to a constant-generator operand (40_operand_resolver.md R89). Safe. -/
  | constantDestination (site : Site)
  /-- Kind 3, reason 5 (R133): raised by the meanings of SXT and CALL with BW = 1 (30_encoding.md R62). Safe. -/
  | undefinedByteForm (site : Site)
  deriving DecidableEq, Repr

/-- Refusals. Every instruction has its meaning, so no arm of `exec` answers one. -/
inductive Refusal where
  /-- Raised by an arm of `exec` whose instruction has no meaning yet; no arm is left. Safe. -/
  | notModelled (mnemonic : String)
  deriving DecidableEq, Repr

/-- Construction, the only reset (10_state.md R35, 70_reset_and_hazards.md R148), for any instance of the two OPEN
parameters (00_scope.md R7). The written marks of R3-R15 are clear, so the 0 that stands for their missing
value is never read: a read of one faults (10_state.md R17), and a write replaces it. -/
def State.construct (codeStart stackStart : Word) : State where
  regs := #v[codeStart, stackStart, 0, 0, 0, 0, 0, 0, 0, 0, 0, 0, 0, 0, 0, 0]
  written := #v[true, true, true, false, false, false, false, false, false, false, false, false, false, false, false,
    false]
  mem := []
  draws := 0

/-- The launch state (70_reset_and_hazards.md R158) that assigns `v` to each of R3-R15 after construction, which
sets their written marks. -/
def State.launchAll (codeStart stackStart v : Word) : State where
  regs := #v[codeStart, stackStart, 0, v, v, v, v, v, v, v, v, v, v, v, v, v]
  written := Vector.replicate 16 true
  mem := []
  draws := 0

/-- The machine right after reset: construction of the spec's example instance, with R3-R15 assigned
`Config.launchValue` so that every register holds a value (DESIGN CHOICE, unsafe, log entries 1, 2 and 3). -/
def State.reset : State := State.launchAll Config.codeStart Config.stackStart Config.launchValue

end Sys2Proof.Machine
end

