-- ==== Sys2Proof/Machine/Ops.lean ====
section
/-!
DEFINITION. The named operations on registers and memory: reading and writing a register with its written mark
(10_state.md R16-R22), bytes and little-endian words of memory (20_memory.md R36-R41), fetching from the
instruction stream (30_encoding.md R50), the stack store of PUSH and CALL (43_unary.md R122-R125), and the end of an
instruction. The core takes no exception: a fault saves nothing, transfers no control and rolls everything back
(60_exceptions.md R134, R139), which `finish` does by answering the report and no state.
-/

namespace Sys2Proof.Machine

open Sys2Proof

/-! ## Registers (10_state.md R16, R17) -/

/-- `x[r]`, whatever its written mark (10_state.md R16). -/
def State.reg (s : State) (r : Reg) : Word := s.regs[r.val]

/-- The written mark of `r` (10_state.md R17). -/
def State.isWritten (s : State) (r : Reg) : Bool := s.written[r.val]

/-- `x[r] <- v`, which sets the written mark (10_state.md R16, R17). -/
def State.setReg (s : State) (r : Reg) (v : Word) : State :=
  { s with regs := s.regs.set r v, written := s.written.set r true }

/-- The PC (10_state.md R18). -/
def State.pc (s : State) : Word := s.reg Reg.pc

/-- The SP (10_state.md R22). -/
def State.sp (s : State) : Word := s.reg Reg.sp

/-- The SR (10_state.md R23). -/
def State.sr (s : State) : Word := s.reg Reg.sr

/-- A use of a register's value by an instruction: it faults where the written mark is clear (10_state.md R17). -/
def readReg (site : Site) (r : Reg) (s : State) : Except Fault Word :=
  if s.isWritten r then .ok (s.reg r) else .error (.uninitializedRegister site r)

/-- The PC moves past one word (10_state.md R18, R20). -/
def State.advancePc (s : State) : State := s.setReg Reg.pc (s.pc + 2)

/-! ## The memory list -/

/-- The canonical form: addresses strictly rising and inside the address space, no entry equal to what an unlisted
address reads as. -/
abbrev Memory.wf (m : List Host.Cell) : Prop :=
  m.Pairwise (fun x y => x.1 < y.1) ∧ ∀ c ∈ m, c.1 < 65536 ∧ c.2 ≠ Config.unlistedByte

/-- The byte at an address. -/
def Memory.read : List Host.Cell → Nat → Byte
  | [], _ => Config.unlistedByte
  | (k, b) :: rest, a => if k = a then b else Memory.read rest a

/-- The list `m` with an entry for `a` before it, unless `b` is what an unlisted address reads as. -/
def Memory.cons (a : Nat) (b : Byte) (m : List Host.Cell) : List Host.Cell :=
  if b = Config.unlistedByte then m else (a, b) :: m

/-- Storing a byte, which keeps the canonical form. -/
def Memory.write : List Host.Cell → Nat → Byte → List Host.Cell
  | [], a, b => Memory.cons a b []
  | (k, c) :: rest, a, b =>
    if a < k then Memory.cons a b ((k, c) :: rest)
    else if a = k then Memory.cons a b rest
    else (k, c) :: Memory.write rest a b

/-! ## Bytes and words of the 65536-byte memory (20_memory.md R36-R38) -/

/-- `MemRead(a, 1)` (20_memory.md R36). -/
def State.byteAt (s : State) (a : Word) : Byte := Memory.read s.mem a.toNat

/-- `MemWrite(a, 1, b)` (20_memory.md R36). -/
def State.setByte (s : State) (a : Word) (b : Byte) : State := { s with mem := Memory.write s.mem a.toNat b }

/-- The word at `a`, low byte at `a` and high byte at `a+1` (20_memory.md R37); meant for `a` below 0xFFFF. -/
def State.wordAt (s : State) (a : Word) : Word := wordOfBytes (s.byteAt a) (s.byteAt (a + 1))

/-- The word `v` stored at `a`, low byte at `a` and high byte at `a+1` (20_memory.md R37); meant for `a` below
0xFFFF. -/
def State.setWord (s : State) (a : Word) (v : Word) : State := (s.setByte a (lowByte v)).setByte (a + 1) (highByte v)

/-- The one address where a word access faults (20_memory.md R38). -/
def topAddress : Word := 0xFFFF

/-- `MemRead(a, n)` at a width, zero-extended; a word at 0xFFFF faults (20_memory.md R36-R39, R41). -/
def loadMem (site : Site) (w : Width) (a : Word) (s : State) : Except Fault Word :=
  match w with
  | .byte => .ok (zext16 (s.byteAt a))
  | .word => if a = topAddress then .error (.wordAccessAtTop site a) else .ok (s.wordAt a)

/-- `MemWrite(a, n, v)` at a width; a word at 0xFFFF faults, and a byte touches only its own address
(20_memory.md R36-R39, R41). -/
def storeMem (site : Site) (w : Width) (a : Word) (v : Word) (s : State) : Except Fault State :=
  match w with
  | .byte => .ok (s.setByte a (lowByte v))
  | .word => if a = topAddress then .error (.wordAccessAtTop site a) else .ok (s.setWord a v)

/-! ## The instruction stream (30_encoding.md R50, R51) -/

/-- `FetchWord()`: the word at the PC and the state with the PC past it (30_encoding.md R50). At an odd PC it
faults before any read (R51); an even PC is never 0xFFFF, so the read itself cannot (60_exceptions.md R133).
`origin` is the address of the instruction, for the report (60_exceptions.md R135). -/
def fetchWord (origin : Word) (s : State) : Except Fault (Word × State) :=
  if s.pc.getLsbD 0 then .error (.misalignedFetch origin) else .ok (s.wordAt s.pc, s.advancePc)

/-- The dispatcher's fetch and decode (00_scope.md R3; 30_encoding.md R50, R58): the instruction at the PC. -/
def fetchInstr (s : State) : Except Fault Instr :=
  match fetchWord s.pc s with
  | .ok (w, _) => .ok (decodeWord w)
  | .error f => .error f

/-- Bytes stored one after another from `a` upwards, wrapping at the top (10_state.md R20). -/
def State.placeBytes (s : State) (a : Word) : List Byte → State
  | [] => s
  | b :: rest => (s.setByte a b).placeBytes (a + 1) rest

/-- `s` with the even address at or below its PC as the PC: what a fetch needs (30_encoding.md R51). An even PC is
left as it is. -/
def State.alignPc (s : State) : State := if s.pc.getLsbD 0 then s.setReg Reg.pc (s.pc &&& 0xFFFE) else s

/-! ## The stack store (43_unary.md R122-R125) -/

/-- SP moves down by 2 and the word `v` is stored at the new SP (43_unary.md R122, R125). -/
def pushWord (site : Site) (v : Word) (s : State) : Except Fault State :=
  storeMem site .word (s.sp - 2) v (s.setReg Reg.sp (s.sp - 2))

/-- One `draw8()`: the next free byte, and the state with the counter advanced (43_unary.md R124, log entry 4). -/
def draw8 (s : State) : Byte × State := (Config.draw8 s.draws, { s with draws := s.draws + 1 })

/-- SP moves down by 2 and a word is stored at the new SP whose low byte is `v[7:0]` and whose high byte is
`draw8()` (43_unary.md R124). -/
def pushByte (site : Site) (v : Word) (s : State) : Except Fault State :=
  let (high, s1) := draw8 s
  pushWord site (wordOfBytes (lowByte v) high) s1

/-! ## The end of an instruction -/

/-- The report's address and word for the instruction `i` at the PC (60_exceptions.md R135). -/
def siteOf (i : Instr) (s : State) : Site := ⟨s.pc, encodeWord i⟩

/-- An instruction commits its whole effect or none of it (00_scope.md R9; 60_exceptions.md R134): a fault carries
no state, so nothing of the instruction stays. -/
def finish : Except Fault State → Host.Outcome State Fault Refusal
  | .ok s => .next s
  | .error f => .fault f

end Sys2Proof.Machine
end

