-- ==== Sys2Proof/Machine/Flags.lean ====
section
/-!
DEFINITION. Widths, the ALU with its four flags (41_alu.md R96-R103), the flags inside R2 and `SetFlags`
(10_state.md R23-R29).
-/

namespace Sys2Proof.Machine

open Sys2Proof

/-! ## Widths (00_scope.md R10) -/

/-- `mask(w)`. -/
def mask : Width → Word
  | .byte => 0x00FF
  | .word => 0xFFFF

/-- `signMask(w)`. -/
def signMask : Width → Word
  | .byte => 0x0080
  | .word => 0x8000

/-- `carryMask(w)`, on the 17-bit sum. -/
def carryMask : Width → BitVec 17
  | .byte => 0x00100
  | .word => 0x10000

/-- Whether the sign bit of the width is set: N of 41_alu.md R98. -/
def negative (w : Width) (v : Word) : Bool := v &&& signMask w != 0

/-! ## The ALU (41_alu.md R96-R102) -/

/-- What the ALU answers (41_alu.md R96). -/
structure AluOut where
  result : Word
  c : Bool
  z : Bool
  n : Bool
  v : Bool
  deriving DecidableEq, Repr

/-- `addWithCarry(w, src, dst, cin)` (41_alu.md R96): the 17-bit sum of the masked inputs and the carry-in, its
width-truncated result, and the flags of R98-R101. -/
def addWithCarry (w : Width) (src dst : Word) (cin : Bool) : AluOut :=
  let s := src &&& mask w
  let d := dst &&& mask w
  let raw : BitVec 17 := s.setWidth 17 + d.setWidth 17 + (BitVec.ofBool cin).setWidth 17
  let result := raw.setWidth 16 &&& mask w
  { result := result
    n := negative w result
    z := result == 0
    c := raw &&& carryMask w != 0
    v := negative w s == negative w d && negative w (raw.setWidth 16 ^^^ d) }

/-- `sub(w, src, dst, cin)`: the ALU on the masked complement of the source (41_alu.md R103). -/
def subWithCarry (w : Width) (src dst : Word) (cin : Bool) : AluOut := addWithCarry w (~~~src &&& mask w) dst cin

/-! ## The flags of R2 (10_state.md R23) -/

/-- The word with bit `pos` set to `b` and every other bit kept. -/
def putBit (v : Word) (pos : Nat) (b : Bool) : Word :=
  if b then v ||| BitVec.twoPow 16 pos else v &&& ~~~BitVec.twoPow 16 pos

/-- C is bit 0 of R2. -/
def carryPos : Nat := 0
/-- Z is bit 1 of R2. -/
def zeroPos : Nat := 1
/-- N is bit 2 of R2. -/
def negativePos : Nat := 2
/-- V is bit 8 of R2. -/
def overflowPos : Nat := 8

/-- The C flag (10_state.md R25). -/
def State.carry (s : State) : Bool := s.sr.getLsbD carryPos
/-- The Z flag (10_state.md R26). -/
def State.zero (s : State) : Bool := s.sr.getLsbD zeroPos
/-- The N flag (10_state.md R27). -/
def State.neg (s : State) : Bool := s.sr.getLsbD negativePos
/-- The V flag (10_state.md R28). -/
def State.overflow (s : State) : Bool := s.sr.getLsbD overflowPos

/-- R2 with C, Z and N, and V where it is named, set to the given values and its other bits kept. -/
def flagsInto (sr : Word) (c z n : Bool) (v : Option Bool) : Word :=
  let czn := putBit (putBit (putBit sr carryPos c) zeroPos z) negativePos n
  match v with
  | some b => putBit czn overflowPos b
  | none => czn

/-- `SetFlags(C=c, Z=z, N=n)`, with `V=v` where it is named: it writes only the bits it names (10_state.md R23). -/
def State.setFlags (s : State) (c z n : Bool) (v : Option Bool) : State :=
  s.setReg Reg.sr (flagsInto s.sr c z n v)

/-- `SetFlags` with the four flags the ALU derived (41_alu.md R105). -/
def State.setAluFlags (s : State) (r : AluOut) : State := s.setFlags r.c r.z r.n (some r.v)

end Sys2Proof.Machine
end

