-- ==== Sys2Proof/Machine/Operands.lean ====
section
/-!
DEFINITION. The operand resolver (40_operand_resolver.md R72-R95): addressing modes, constant generators, and
reading and writing a Location at a width; and the operand steps the binary and unary templates share
(42_binary.md R106, 43_unary.md R116).
-/

namespace Sys2Proof.Machine

open Sys2Proof

/-- What the resolver answers (40_operand_resolver.md R73). -/
inductive Location where
  | reg (r : Reg)
  | mem (a : Word)
  | const (v : Word)
  deriving DecidableEq, Repr

/-- The mode of the resolver's interface that an Ad field names (30_encoding.md R52). -/
def dstMode : DstMode → Mode
  | .register => .register
  | .indexed => .indexed

/-- The constant a source operand yields instead of an access: R3 in every mode (40_operand_resolver.md R82), R2 in
modes 2 and 3 (R83). -/
def constantOf (reg : Reg) (mode : Mode) : Option Word :=
  if reg = Reg.cg then
    match mode with
    | .register => some 0x0000
    | .indexed => some 0x0001
    | .indirect => some 0x0002
    | .postInc => some 0xFFFF
  else if reg = Reg.sr then
    match mode with
    | .indirect => some 0x0004
    | .postInc => some 0x0008
    | .register | .indexed => none
  else none

/-- What mode 3 adds to its register: 2 for the PC and 1 for every other register, at both widths
(40_operand_resolver.md R80). -/
def postIncrement (reg : Reg) : Word := if reg = Reg.pc then 2 else 1

/-- The four modes without substitution (40_operand_resolver.md R76-R81). -/
def resolveMode (site : Site) (mode : Mode) (reg : Reg) (s : State) : Except Fault (Location × State) :=
  match mode with
  | .register => .ok (.reg reg, s)
  | .indexed => do
    let (e, s1) ← fetchWord site.pc s
    let base ← readReg site reg s1
    return (.mem (base + e), s1)
  | .indirect => do
    let a ← readReg site reg s
    return (.mem a, s)
  | .postInc => do
    let a ← readReg site reg s
    return (.mem a, s.setReg reg (a + postIncrement reg))

/-- `Resolve(Src, mode, reg, w)` (40_operand_resolver.md R72): constant generators first, R2 in mode 1 absolute
(R84), else the mode. -/
def resolveSrc (site : Site) (mode : Mode) (reg : Reg) (s : State) : Except Fault (Location × State) :=
  match constantOf reg mode with
  | some v => .ok (.const v, s)
  | none =>
    if reg = Reg.sr ∧ mode = .indexed then do
      let (e, s1) ← fetchWord site.pc s
      return (.mem e, s1)
    else resolveMode site mode reg s

/-- `Resolve(Dst, mode, reg, w)` (40_operand_resolver.md R72): only modes 0 and 1 (R74), and no substitution
(R90). -/
def resolveDst (site : Site) (mode : Mode) (reg : Reg) (s : State) : Except Fault (Location × State) :=
  match mode with
  | .register | .indexed => resolveMode site mode reg s
  | .indirect | .postInc => .error (.unsupportedAddressingMode site .dst mode)

/-- `Resolve(role, mode, reg, w)` (40_operand_resolver.md R72). The width changes nothing here. -/
def resolve (site : Site) (role : Role) (mode : Mode) (reg : Reg) (s : State) : Except Fault (Location × State) :=
  match role with
  | .src => resolveSrc site mode reg s
  | .dst => resolveDst site mode reg s

/-- `ReadLoc(loc, w)` (40_operand_resolver.md R86). -/
def readLoc (site : Site) (loc : Location) (w : Width) (s : State) : Except Fault Word :=
  match loc with
  | .reg r => do
    let v ← readReg site r s
    return v &&& mask w
  | .mem a => loadMem site w a s
  | .const v => .ok (v &&& mask w)

/-- What a register holds after a write of `v` at a width: a byte write clears the high byte
(40_operand_resolver.md R87). -/
def narrow (w : Width) (v : Word) : Word :=
  match w with
  | .word => v
  | .byte => zext16 (lowByte v)

/-- `WriteLoc(loc, w, v)` (40_operand_resolver.md R87-R89). -/
def writeLoc (site : Site) (loc : Location) (w : Width) (v : Word) (s : State) : Except Fault State :=
  match loc with
  | .reg r => .ok (s.setReg r (narrow w v))
  | .mem a => storeMem site w a v s
  | .const _ => .error (.constantDestination site)

/-- What the operand steps of an instruction leave: the value read, the Location the result goes to, and the state
reached. -/
structure Operand where
  value : Word
  loc : Location
  state : State
  deriving DecidableEq, Repr

/-- The steps of the binary template up to its handler (42_binary.md R106, 40_operand_resolver.md R91): past the
instruction word, resolve the source, read it, resolve the destination. -/
def binaryOperands (site : Site) (sreg : Reg) (as : Mode) (bw : Width) (ad : DstMode) (dreg : Reg) (s : State) :
    Except Fault Operand := do
  let (sl, s1) ← resolve site .src as sreg s.advancePc
  let sv ← readLoc site sl bw s1
  let (dl, s2) ← resolve site .dst (dstMode ad) dreg s1
  return ⟨sv, dl, s2⟩

/-- The steps of the unary template up to its handler (43_unary.md R116): past the instruction word, resolve the
operand in the source role, read it. -/
def unaryOperand (site : Site) (as : Mode) (bw : Width) (reg : Reg) (s : State) : Except Fault Operand := do
  let (l, s1) ← resolve site .src as reg s.advancePc
  let v ← readLoc site l bw s1
  return ⟨v, l, s1⟩

end Sys2Proof.Machine
end

