-- ==== Sys2Proof/Machine/Binary.lean ====
section
/-!
DEFINITION. The binary family: MOV, ADD, ADDC, SUBC, SUB, CMP (42_binary.md R106-R115), each over the template's
operand steps, with the write-back before the flags (R107).
-/

namespace Sys2Proof.Machine

open Sys2Proof

/-- The handler of the ALU instructions that write back (42_binary.md R107, R109-R112): read the destination, compute,
write the result, then set the flags. `alu` is the ALU with the source value and the carry-in given. -/
def aluHandler (site : Site) (bw : Width) (o : Operand) (alu : Word → AluOut) : Except Fault State := do
  let dv ← readLoc site o.loc bw o.state
  let s ← writeLoc site o.loc bw (alu dv).result o.state
  return s.setAluFlags (alu dv)

/-- MOV (42_binary.md R108): the destination is not read and no flag changes. -/
def execMov (sreg : Reg) (as : Mode) (bw : Width) (ad : DstMode) (dreg : Reg) (s : State) :
    Host.Outcome State Fault Refusal :=
  let site := siteOf (.mov sreg as bw ad dreg) s
  finish do
    let o ← binaryOperands site sreg as bw ad dreg s
    writeLoc site o.loc bw o.value o.state

/-- ADD (42_binary.md R109): carry-in 0. -/
def execAdd (sreg : Reg) (as : Mode) (bw : Width) (ad : DstMode) (dreg : Reg) (s : State) :
    Host.Outcome State Fault Refusal :=
  let site := siteOf (.add sreg as bw ad dreg) s
  finish do
    let o ← binaryOperands site sreg as bw ad dreg s
    aluHandler site bw o fun dv => addWithCarry bw o.value dv false

/-- ADDC (42_binary.md R110): carry-in C, as it stood when the instruction began. -/
def execAddc (sreg : Reg) (as : Mode) (bw : Width) (ad : DstMode) (dreg : Reg) (s : State) :
    Host.Outcome State Fault Refusal :=
  let site := siteOf (.addc sreg as bw ad dreg) s
  finish do
    let o ← binaryOperands site sreg as bw ad dreg s
    aluHandler site bw o fun dv => addWithCarry bw o.value dv s.carry

/-- SUBC (42_binary.md R111): the masked complement of the source, carry-in C. -/
def execSubc (sreg : Reg) (as : Mode) (bw : Width) (ad : DstMode) (dreg : Reg) (s : State) :
    Host.Outcome State Fault Refusal :=
  let site := siteOf (.subc sreg as bw ad dreg) s
  finish do
    let o ← binaryOperands site sreg as bw ad dreg s
    aluHandler site bw o fun dv => subWithCarry bw o.value dv s.carry

/-- SUB (42_binary.md R112): the masked complement of the source, carry-in 1 (90_conflicts.md C1). -/
def execSub (sreg : Reg) (as : Mode) (bw : Width) (ad : DstMode) (dreg : Reg) (s : State) :
    Host.Outcome State Fault Refusal :=
  let site := siteOf (.sub sreg as bw ad dreg) s
  finish do
    let o ← binaryOperands site sreg as bw ad dreg s
    aluHandler site bw o fun dv => subWithCarry bw o.value dv true

/-- CMP (42_binary.md R113): the flags of SUB, and no write-back. -/
def execCmp (sreg : Reg) (as : Mode) (bw : Width) (ad : DstMode) (dreg : Reg) (s : State) :
    Host.Outcome State Fault Refusal :=
  let site := siteOf (.cmp sreg as bw ad dreg) s
  finish do
    let o ← binaryOperands site sreg as bw ad dreg s
    let dv ← readLoc site o.loc bw o.state
    return o.state.setAluFlags (subWithCarry bw o.value dv true)

end Sys2Proof.Machine
end

