-- ==== Sys2Proof/Machine/Reserved.lean ====
section
/-!
DEFINITION. The words that fault at decode (30_encoding.md R57, R59-R62, R71; 60_exceptions.md R132, R133): the effect
the spec gives each is its fault, raised before any operand is resolved (60_exceptions.md R137).
-/

namespace Sys2Proof.Machine

open Sys2Proof

/-- A word without a handler (60_exceptions.md R132). -/
def raiseUnimplemented (i : Instr) (s : State) : Host.Outcome State Fault Refusal :=
  .fault (.unimplementedOpcode (siteOf i s))

/-- The byte form the source does not define (60_exceptions.md R133). -/
def raiseUndefinedByteForm (i : Instr) (s : State) : Host.Outcome State Fault Refusal :=
  .fault (.undefinedByteForm (siteOf i s))

/-- 0x0000-0x0FFF (30_encoding.md R57). -/
def execUnclassified0000 (bits : BitVec 12) (s : State) : Host.Outcome State Fault Refusal :=
  raiseUnimplemented (.unclassified0000 bits) s

/-- 0x1400-0x17FF (30_encoding.md R57). -/
def execUnclassified1400 (bits : BitVec 10) (s : State) : Host.Outcome State Fault Refusal :=
  raiseUnimplemented (.unclassified1400 bits) s

/-- 0x1800-0x1FFF (30_encoding.md R57). -/
def execUnclassified1800 (bits : BitVec 11) (s : State) : Host.Outcome State Fault Refusal :=
  raiseUnimplemented (.unclassified1800 bits) s

/-- 0x2000-0x3FFF (30_encoding.md R57, R61). -/
def execUnclassified2000 (bits : BitVec 13) (s : State) : Host.Outcome State Fault Refusal :=
  raiseUnimplemented (.unclassified2000 bits) s

/-- 0x1300-0x137F (30_encoding.md R60). -/
def execUnaryUop6 (bits : BitVec 7) (s : State) : Host.Outcome State Fault Refusal :=
  raiseUnimplemented (.unaryUop6 bits) s

/-- 0x1380-0x13FF (30_encoding.md R60). -/
def execUnaryUop7 (bits : BitVec 7) (s : State) : Host.Outcome State Fault Refusal :=
  raiseUnimplemented (.unaryUop7 bits) s

/-- SWPB.B, 0x10C0-0x10FF (30_encoding.md R62). -/
def execSwpbByte (as : Mode) (reg : Reg) (s : State) : Host.Outcome State Fault Refusal :=
  raiseUnimplemented (.swpbByte as reg) s

/-- SXT.B, 0x11C0-0x11FF (30_encoding.md R62). -/
def execSxtByte (as : Mode) (reg : Reg) (s : State) : Host.Outcome State Fault Refusal :=
  raiseUndefinedByteForm (.sxtByte as reg) s

/-- CALL.B, 0x12C0-0x12FF (30_encoding.md R62). -/
def execCallByte (as : Mode) (reg : Reg) (s : State) : Host.Outcome State Fault Refusal :=
  raiseUndefinedByteForm (.callByte as reg) s

/-- 0xA000-0xBFFF (30_encoding.md R59). -/
def execBinaryOpAB (bits : BitVec 13) (s : State) : Host.Outcome State Fault Refusal :=
  raiseUnimplemented (.binaryOpAB bits) s

/-- 0xC000-0xFFFF (30_encoding.md R59). -/
def execBinaryOpCF (bits : BitVec 14) (s : State) : Host.Outcome State Fault Refusal :=
  raiseUnimplemented (.binaryOpCF bits) s

end Sys2Proof.Machine
end

