-- ==== Sys2Proof/Machine/Unary.lean ====
section
/-!
DEFINITION. The unary family: RRC, SWPB, RRA, SXT, PUSH, CALL (43_unary.md R116-R129).
SWPB, SXT and CALL have no byte form (30_encoding.md R62): a term of `Instr` that names one, which no word decodes to,
faults as the word it would encode to.
-/

namespace Sys2Proof.Machine

open Sys2Proof

/-- RRC's result: one to the right, C into the sign bit of the width (43_unary.md R118). -/
def rotateRight (w : Width) (carry : Bool) (v : Word) : Word := (v >>> 1) ||| (if carry then signMask w else 0)

/-- RRA's result: one to the right, the sign bit of the width kept (43_unary.md R120). -/
def shiftRight (w : Width) (v : Word) : Word := (v >>> 1) ||| (v &&& signMask w)

/-- SWPB's result: the two bytes exchanged (43_unary.md R119). -/
def swapBytes (v : Word) : Word := wordOfBytes (highByte v) (lowByte v)

/-- SXT's result: bit 7 copied into bits 15:8 (43_unary.md R121). -/
def signExtend (v : Word) : Word := sext16 (lowByte v)

/-- The handler of RRC and RRA (43_unary.md R118, R120): write the result back, then C is the bit shifted out, Z and N
come from the result, and V is cleared. -/
def shiftHandler (site : Site) (bw : Width) (o : Operand) (result : Word) : Except Fault State := do
  let s ← writeLoc site o.loc bw result o.state
  return s.setFlags (o.value.getLsbD 0) (result == 0) (negative bw result) (some false)

/-- RRC (43_unary.md R118): C is the one that stood when the instruction began, since no operand step writes R2. -/
def execRrc (bw : Width) (as : Mode) (reg : Reg) (s : State) : Host.Outcome State Fault Refusal :=
  let site := siteOf (.rrc bw as reg) s
  finish do
    let o ← unaryOperand site as bw reg s
    shiftHandler site bw o (rotateRight bw s.carry o.value)

/-- SWPB (43_unary.md R119): word only, no flag changes; its byte form has no handler (30_encoding.md R62). -/
def execSwpb (bw : Width) (as : Mode) (reg : Reg) (s : State) : Host.Outcome State Fault Refusal :=
  let site := siteOf (.swpb bw as reg) s
  match bw with
  | .byte => .fault (.unimplementedOpcode site)
  | .word => finish do
    let o ← unaryOperand site as .word reg s
    writeLoc site o.loc .word (swapBytes o.value) o.state

/-- RRA (43_unary.md R120). -/
def execRra (bw : Width) (as : Mode) (reg : Reg) (s : State) : Host.Outcome State Fault Refusal :=
  let site := siteOf (.rra bw as reg) s
  finish do
    let o ← unaryOperand site as bw reg s
    shiftHandler site bw o (shiftRight bw o.value)

/-- SXT (43_unary.md R121): word only; C is the complement of Z, and V is not named; its byte form is undefined
(30_encoding.md R62). -/
def execSxt (bw : Width) (as : Mode) (reg : Reg) (s : State) : Host.Outcome State Fault Refusal :=
  let site := siteOf (.sxt bw as reg) s
  match bw with
  | .byte => .fault (.undefinedByteForm site)
  | .word => finish do
    let o ← unaryOperand site as .word reg s
    let r := signExtend o.value
    let t ← writeLoc site o.loc .word r o.state
    return t.setFlags (r != 0) (r == 0) (r.getLsbD 15) none

/-- PUSH (43_unary.md R122-R124): the operand is read before SP moves (R123); the byte form stores a free high byte
(R124); no flag changes (R127). -/
def execPush (bw : Width) (as : Mode) (reg : Reg) (s : State) : Host.Outcome State Fault Refusal :=
  let site := siteOf (.push bw as reg) s
  finish do
    let o ← unaryOperand site as bw reg s
    match bw with
    | .word => pushWord site o.value o.state
    | .byte => pushByte site o.value o.state

/-- CALL (43_unary.md R125): word only; the PC past the CALL and its extension word is pushed, then the operand's value
becomes the PC; no flag changes (R127); its byte form is undefined (30_encoding.md R62). -/
def execCall (bw : Width) (as : Mode) (reg : Reg) (s : State) : Host.Outcome State Fault Refusal :=
  let site := siteOf (.call bw as reg) s
  match bw with
  | .byte => .fault (.undefinedByteForm site)
  | .word => finish do
    let o ← unaryOperand site as .word reg s
    let t ← pushWord site o.state.pc o.state
    return t.setReg Reg.pc o.value

end Sys2Proof.Machine
end

