-- ==== Sys2Proof/Machine/Dispatch.lean ====
section
/-!
DEFINITION. The dispatcher's handler tables (30_encoding.md R59, R60): one arm per constructor of `Instr`. The state is
the one before the instruction, its PC the instruction's own address A (10_state.md R18).
-/

namespace Sys2Proof.Machine

open Sys2Proof

def exec (i : Instr) (s : State) : Host.Outcome State Fault Refusal :=
  match i with
  | .mov sreg as bw ad dreg => Sys2Proof.Machine.execMov sreg as bw ad dreg s
  | .add sreg as bw ad dreg => Sys2Proof.Machine.execAdd sreg as bw ad dreg s
  | .addc sreg as bw ad dreg => Sys2Proof.Machine.execAddc sreg as bw ad dreg s
  | .subc sreg as bw ad dreg => Sys2Proof.Machine.execSubc sreg as bw ad dreg s
  | .sub sreg as bw ad dreg => Sys2Proof.Machine.execSub sreg as bw ad dreg s
  | .cmp sreg as bw ad dreg => Sys2Proof.Machine.execCmp sreg as bw ad dreg s
  | .rrc bw as reg => Sys2Proof.Machine.execRrc bw as reg s
  | .swpb bw as reg => Sys2Proof.Machine.execSwpb bw as reg s
  | .rra bw as reg => Sys2Proof.Machine.execRra bw as reg s
  | .sxt bw as reg => Sys2Proof.Machine.execSxt bw as reg s
  | .push bw as reg => Sys2Proof.Machine.execPush bw as reg s
  | .call bw as reg => Sys2Proof.Machine.execCall bw as reg s
  | .unclassified0000 bits => Sys2Proof.Machine.execUnclassified0000 bits s
  | .unclassified1400 bits => Sys2Proof.Machine.execUnclassified1400 bits s
  | .unclassified1800 bits => Sys2Proof.Machine.execUnclassified1800 bits s
  | .unclassified2000 bits => Sys2Proof.Machine.execUnclassified2000 bits s
  | .unaryUop6 bits => Sys2Proof.Machine.execUnaryUop6 bits s
  | .unaryUop7 bits => Sys2Proof.Machine.execUnaryUop7 bits s
  | .swpbByte as reg => Sys2Proof.Machine.execSwpbByte as reg s
  | .sxtByte as reg => Sys2Proof.Machine.execSxtByte as reg s
  | .callByte as reg => Sys2Proof.Machine.execCallByte as reg s
  | .binaryOpAB bits => Sys2Proof.Machine.execBinaryOpAB bits s
  | .binaryOpCF bits => Sys2Proof.Machine.execBinaryOpCF bits s

end Sys2Proof.Machine
end

