-- ==== Sys2Proof/Machine/Step.lean ====
section
/-!
DEFINITION. One step (00_scope.md R3, R8, R9): fetch the word at the PC, decode it, run its handler. `exec` moves the PC
past the instruction word itself, so a step is the fetch and `exec` at the same state.
-/

namespace Sys2Proof.Machine

open Sys2Proof

/-- One instruction, run to completion or to its fault (00_scope.md R8, R9). -/
def step (s : State) : Host.Outcome State Fault Refusal :=
  match fetchInstr s with
  | .ok i => exec i s
  | .error f => .fault f

/-- `s` with the instruction whose bits are `w`, and zero bytes up to the longest instruction, stored where `step`
fetches next. An odd PC, at which the fetch would fault, is first made even. -/
def State.withFetchWord (s : State) (nbits w : Nat) : State :=
  s.alignPc.placeBytes s.alignPc.pc (tableBytes nbits w)

end Sys2Proof.Machine
end

