-- ==== Sys2Proof/Machine/HostInterface.lean ====
section
/-!
DEFINITION. What the host can do to the core between steps (60_exceptions.md R143-R145): step it, inspect it, write
memory, push and pop, and, before the first step, load an image (70_reset_and_hazards.md R149) and assign a launch
state (R158); and the outputs of a faulting step (60_exceptions.md R130, R147). No operation here is part of `step`.
-/

namespace Sys2Proof.Machine

open Sys2Proof

/-- Why a host operation is not performed. All are safe: the spec itself says the operation has no effect. -/
inductive HostRefusal where
  /-- A word access at 0xFFFF by `WriteWord` or a push or pop (60_exceptions.md R144). Safe. -/
  | wordAccessAtTop (addr : Word)
  /-- An image that does not fit above CODE_START (70_reset_and_hazards.md R149). Safe. -/
  | imageTooLarge (length : Nat)
  deriving DecidableEq, Repr

/-- `Step()` (60_exceptions.md R143): a completed step commits its state, a fault leaves the state as it was and is
reported (R134, R135). A refusal, which no step answers, would leave it too. -/
def hostStep (s : State) : State × Option Fault :=
  match step s with
  | .next t => (t, none)
  | .fault f => (s, some f)
  | .refused _ => (s, none)

/-- `ReadReg(i)`: no value for a register without a written mark (60_exceptions.md R143). -/
def hostReadReg (s : State) (r : Reg) : Option Word := if s.isWritten r then some (s.reg r) else none

/-- `ReadByte(a)` (60_exceptions.md R143). -/
def hostReadByte (s : State) (a : Word) : Byte := s.byteAt a

/-- `WriteByte(a, v)` (60_exceptions.md R143). -/
def hostWriteByte (s : State) (a : Word) (v : Byte) : State := s.setByte a v

/-- A host access to the word at `a`: refused at 0xFFFF (60_exceptions.md R144). -/
def hostWordAccess {α : Type} (a : Word) (result : α) : Except HostRefusal α :=
  if a = topAddress then .error (.wordAccessAtTop a) else .ok result

/-- `WriteWord(a, v)`, little-endian (60_exceptions.md R143, R144). -/
def hostWriteWord (s : State) (a v : Word) : Except HostRefusal State := hostWordAccess a (s.setWord a v)

/-- `PushWord(v)` (60_exceptions.md R144). -/
def hostPushWord (s : State) (v : Word) : Except HostRefusal State :=
  hostWordAccess (s.sp - 2) ((s.setReg Reg.sp (s.sp - 2)).setWord (s.sp - 2) v)

/-- `PushByte(v)`, laid out as PUSH.B with a free high byte (60_exceptions.md R144; log entry 4). -/
def hostPushByte (s : State) (v : Byte) : Except HostRefusal State :=
  let (high, s1) := draw8 s
  hostPushWord s1 (wordOfBytes v high)

/-- `PopWord()` (60_exceptions.md R144). -/
def hostPopWord (s : State) : Except HostRefusal (Word × State) :=
  hostWordAccess s.sp (s.wordAt s.sp, s.setReg Reg.sp (s.sp + 2))

/-- `PopByte()` (60_exceptions.md R144). -/
def hostPopByte (s : State) : Byte × State := (s.byteAt s.sp, s.setReg Reg.sp (s.sp + 2))

/-- `Load(buf, len)` (70_reset_and_hazards.md R149): the bytes of the image from CODE_START upwards; an image that
does not fit is refused. -/
def load (codeStart : Word) (image : List Byte) (s : State) : Except HostRefusal State :=
  if codeStart.toNat + image.length ≤ 0x10000 then .ok (s.placeBytes codeStart image)
  else .error (.imageTooLarge image.length)

/-- The register assignments of a launch state (70_reset_and_hazards.md R158), which set the written marks. -/
def assignRegs : List (Reg × Word) → State → State
  | [], s => s
  | (r, v) :: rest, s => assignRegs rest (s.setReg r v)

/-! ## The fault report as outputs (60_exceptions.md R130, R147) -/

/-- The outputs after a faulting step. `detail` is absent for a fault the spec gives no detail (R135, R147). -/
structure FaultOutputs where
  kind : BitVec 2
  reason : BitVec 3
  pc : Word
  word : Word
  detail : Option Word
  deriving DecidableEq, Repr

/-- `role << 2 | mode`, with Src = 0 and Dst = 1 (60_exceptions.md R147). -/
def roleModeBits (role : Role) (mode : Mode) : Word :=
  ((match role with
    | .src => 0
    | .dst => 1) <<< 2) ||| mode.toBits.setWidth 16

/-- The fault report as outputs (60_exceptions.md R130, R147). -/
def faultOutputs : Fault → FaultOutputs
  | .unsupportedAddressingMode site role mode => ⟨1, 0, site.pc, site.word, some (roleModeBits role mode)⟩
  | .unimplementedOpcode site => ⟨2, 0, site.pc, site.word, none⟩
  | .uninitializedRegister site r => ⟨3, 1, site.pc, site.word, some (BitVec.ofNat 16 r.val)⟩
  | .misalignedFetch pc => ⟨3, 2, pc, 0, none⟩
  | .wordAccessAtTop site a => ⟨3, 3, site.pc, site.word, some a⟩
  | .constantDestination site => ⟨3, 4, site.pc, site.word, none⟩
  | .undefinedByteForm site => ⟨3, 5, site.pc, site.word, none⟩

/-- The instruction word a report names, none for a misaligned fetch (60_exceptions.md R135). -/
def faultWord : Fault → Option Word
  | .unsupportedAddressingMode site _ _ => some site.word
  | .unimplementedOpcode site => some site.word
  | .uninitializedRegister site _ => some site.word
  | .misalignedFetch _ => none
  | .wordAccessAtTop site _ => some site.word
  | .constantDestination site => some site.word
  | .undefinedByteForm site => some site.word

/-- The `fault` output: 1 after a faulting step, 0 after an `Ok` step (60_exceptions.md R147). -/
def faultLine : Host.Outcome State Fault Refusal → Bool
  | .next _ => false
  | .fault _ => true
  | .refused _ => false

end Sys2Proof.Machine
end

