-- ==== Sys2Proof/Safety.lean ====
section
/-!
DEFINITION. The terms the statements use. The tables of the spec as total functions, written apart from the resolver's
algorithm: where an operand lies and what resolving it changes (40_operand_resolver.md R95, R90), what a Location holds
and what a write to it leaves (R86-R88), the conditions under which no fault applies (60_exceptions.md R137), and the
invariants of the state.
-/

namespace Sys2Proof.Safety

open Sys2Proof Sys2Proof.Machine

/-! ## Operands by table (40_operand_resolver.md R95) -/

/-- The table of R95: where a source operand lies. The PC of `s` is just past the instruction word. -/
def srcLocation (s : State) (as : Mode) (reg : Reg) : Location :=
  if reg = 3 then
    match as with
    | .register => .const 0
    | .indexed => .const 1
    | .indirect => .const 2
    | .postInc => .const 0xFFFF
  else if reg = 2 then
    match as with
    | .register => .reg 2
    | .indexed => .mem (s.wordAt s.pc)
    | .indirect => .const 4
    | .postInc => .const 8
  else
    match as with
    | .register => .reg reg
    | .indexed => .mem ((if reg = 0 then s.pc + 2 else s.reg reg) + s.wordAt s.pc)
    | .indirect => .mem (s.reg reg)
    | .postInc => .mem (s.reg reg)

/-- The table of R95: what resolving a source operand changes. An extension word moves the PC by 2, mode 3 moves its
register by 2 for R0 and by 1 for R1 and R4-R15, and nothing else changes. -/
def afterSrc (s : State) (as : Mode) (reg : Reg) : State :=
  match as with
  | .register => s
  | .indexed => if reg = 3 then s else s.setReg 0 (s.pc + 2)
  | .indirect => s
  | .postInc => if reg = 3 ∨ reg = 2 then s else s.setReg reg (s.reg reg + if reg = 0 then 2 else 1)

/-- Where a destination operand lies: no substitution (R90). -/
def dstLocation (s : State) (ad : DstMode) (reg : Reg) : Location :=
  match ad with
  | .register => .reg reg
  | .indexed => .mem ((if reg = 0 then s.pc + 2 else s.reg reg) + s.wordAt s.pc)

/-- What resolving a destination operand changes. -/
def afterDst (s : State) (ad : DstMode) : State :=
  match ad with
  | .register => s
  | .indexed => s.setReg 0 (s.pc + 2)

/-! ## Locations (40_operand_resolver.md R86-R89) -/

/-- What a Location holds at a width (R86). -/
def valueAt (s : State) (loc : Location) (w : Width) : Word :=
  match loc, w with
  | .reg r, .word => s.reg r
  | .reg r, .byte => s.reg r &&& 0xFF
  | .mem a, .word => s.wordAt a
  | .mem a, .byte => zext16 (s.byteAt a)
  | .const v, .word => v
  | .const v, .byte => v &&& 0xFF

/-- The state after a write of `v` to a Location at a width (R87, R88); a constant takes none. -/
def putAt (s : State) (loc : Location) (w : Width) (v : Word) : State :=
  match loc, w with
  | .reg r, .word => s.setReg r v
  | .reg r, .byte => s.setReg r (v &&& 0xFF)
  | .mem a, .word => s.setWord a v
  | .mem a, .byte => s.setByte a (lowByte v)
  | .const _, _ => s

/-! ## When no fault applies (60_exceptions.md R137) -/

/-- The PC is even, so the fetches of the instruction do not fault (30_encoding.md R51). -/
abbrev Aligned (s : State) : Prop := s.pc.getLsbD 0 = false

/-- A word access is not at 0xFFFF (20_memory.md R38). -/
abbrev InMemory (w : Width) (a : Word) : Prop := w = .word → a ≠ 0xFFFF

/-- The base register a source operand reads to form its address, if it reads one (40_operand_resolver.md R93). -/
def srcBase (as : Mode) (reg : Reg) : Option Reg :=
  if reg = 3 ∨ reg = 2 then none
  else
    match as with
    | .register => none
    | .indexed | .indirect | .postInc => some reg

/-- The base register, where there is one, has its written mark (10_state.md R17). -/
def BaseWritten (s : State) (base : Option Reg) : Prop := ∀ r ∈ base, s.isWritten r = true

/-- The base register of a destination operand. -/
def dstBase (ad : DstMode) (reg : Reg) : Option Reg :=
  match ad with
  | .register => none
  | .indexed => some reg

/-- A read of the Location at the width does not fault (10_state.md R17, 20_memory.md R38). -/
def Readable (s : State) (loc : Location) (w : Width) : Prop :=
  match loc with
  | .reg r => s.isWritten r = true
  | .mem a => InMemory w a
  | .const _ => True

/-- A write to the Location at the width does not fault (20_memory.md R38, 40_operand_resolver.md R89). -/
def Writable (loc : Location) (w : Width) : Prop :=
  match loc with
  | .reg _ => True
  | .mem a => InMemory w a
  | .const _ => False

/-- What the operand steps of a binary instruction give, by the tables: `s` is the state before the instruction
(42_binary.md R106). -/
def binaryTable (sreg : Reg) (as : Mode) (bw : Width) (ad : DstMode) (dreg : Reg) (s : State) : Operand :=
  let s0 := s.setReg 0 (s.pc + 2)
  let s1 := afterSrc s0 as sreg
  ⟨valueAt s1 (srcLocation s0 as sreg) bw, dstLocation s1 ad dreg, afterDst s1 ad⟩

/-- What the operand steps of a unary instruction give, by the tables (43_unary.md R116). -/
def unaryTable (as : Mode) (bw : Width) (reg : Reg) (s : State) : Operand :=
  let s0 := s.setReg 0 (s.pc + 2)
  let s1 := afterSrc s0 as reg
  ⟨valueAt s1 (srcLocation s0 as reg) bw, srcLocation s0 as reg, s1⟩

/-- The source operand resolves and reads without a fault: `s` is the state before the instruction. -/
structure SourceReady (as : Mode) (bw : Width) (reg : Reg) (s : State) : Prop where
  aligned : Aligned s
  base : BaseWritten (s.setReg 0 (s.pc + 2)) (srcBase as reg)
  readable : Readable (afterSrc (s.setReg 0 (s.pc + 2)) as reg) (srcLocation (s.setReg 0 (s.pc + 2)) as reg) bw

/-- The operand steps of a binary instruction meet no fault: `s` is the state before the instruction. -/
structure BinaryReady (sreg : Reg) (as : Mode) (bw : Width) (ad : DstMode) (dreg : Reg) (s : State) : Prop where
  source : SourceReady as bw sreg s
  dstBase : BaseWritten (binaryTable sreg as bw ad dreg s).state (dstBase ad dreg)

/-! ## The words of 30_encoding.md R71, and the instructions that write the PC -/

/-- The words R71 lists as `UnimplementedOpcode`. -/
def UnimplementedWord (w : Word) : Prop :=
  w.toNat ≤ 0x0FFF ∨ (0x1300 ≤ w.toNat ∧ w.toNat ≤ 0x13FF) ∨ (0x10C0 ≤ w.toNat ∧ w.toNat ≤ 0x10FF) ∨
    (0x1400 ≤ w.toNat ∧ w.toNat ≤ 0x1FFF) ∨ (0x2000 ≤ w.toNat ∧ w.toNat ≤ 0x3FFF) ∨ 0xA000 ≤ w.toNat

/-- The words R71 lists as `UnspecifiedBehaviour(UndefinedByteForm)`. -/
def ByteFormWord (w : Word) : Prop :=
  (0x11C0 ≤ w.toNat ∧ w.toNat ≤ 0x11FF) ∨ (0x12C0 ≤ w.toNat ∧ w.toNat ≤ 0x12FF)

/-- The instructions that give R0 a value other than an advance (10_state.md R19): CALL, and those whose destination
Location is register R0. -/
def writesPc : Instr → Bool
  | .mov _ _ _ ad dreg | .add _ _ _ ad dreg | .addc _ _ _ ad dreg | .subc _ _ _ ad dreg | .sub _ _ _ ad dreg =>
    ad == .register && dreg == 0
  | .rrc _ as reg | .swpb _ as reg | .rra _ as reg | .sxt _ as reg => as == .register && reg == 0
  | .call _ _ _ => true
  | .cmp _ _ _ _ _ | .push _ _ _ => false
  | .unclassified0000 _ | .unclassified1400 _ | .unclassified1800 _ | .unclassified2000 _ => false
  | .unaryUop6 _ | .unaryUop7 _ | .swpbByte _ _ | .sxtByte _ _ | .callByte _ _ => false
  | .binaryOpAB _ | .binaryOpCF _ => false

/-- The number of value bits of a width: 8 or 16. -/
def bits : Width → Nat
  | .byte => 8
  | .word => 16

/-- The unsigned value of the low bits of a width. -/
def low (w : Width) (v : Word) : Nat := v.toNat % 2 ^ bits w

/-- The two's-complement value of the low bits of a width (00_scope.md R10). -/
def signed (w : Width) (v : Word) : Int :=
  if low w v < 2 ^ (bits w - 1) then (low w v : Int) else (low w v : Int) - 2 ^ bits w

/-- A signed value the width can hold. -/
def InSignedRange (w : Width) (x : Int) : Prop := -(2 ^ (bits w - 1) : Int) ≤ x ∧ x ≤ 2 ^ (bits w - 1) - 1

/-! ## Invariants -/

/-- The memory list is canonical and R0, R1 and R2 have their written marks (10_state.md R17, R35). -/
structure Inv (s : State) : Prop where
  mem : Memory.wf s.mem
  marks : s.isWritten 0 = true ∧ s.isWritten 1 = true ∧ s.isWritten 2 = true

/-- Every register has its written mark, as in a launch state that assigns all of R3-R15
(70_reset_and_hazards.md R158). -/
def AllWritten (s : State) : Prop := ∀ r : Reg, s.isWritten r = true

/-- A completed step or instruction. -/
def Completes (o : Host.Outcome State Fault Refusal) : Prop := ∃ t, o = .next t

/-- A run of `n` steps from `s` completes (70_reset_and_hazards.md R157). -/
def RunCompletes (n : Nat) (s : State) : Prop := ∃ t, Sys2Proof.core.run n s = .next t

end Sys2Proof.Safety
end

