-- ==== Sys2Proof/Certificates/Slice0/Obligations.lean ====
section
/-!
DEFINITION. The statements for the provers, by the spec's numbered rules. A register is written as its number, 0 for
PC, 1 for SP, 2 for SR. Where a statement rests on a decision the spec marks as its own (92_eei_decisions.md D<n>) or
on a log entry, its docstring names it.
-/

open Sys2Proof Sys2Proof.Machine Sys2Proof.Safety

/-! ## Encoding -/

/-- Every operand of every instruction survives encoding and decoding, as a word and as bytes with anything after them
(30_encoding.md sections 2 to 4; the numbers are the spec's decisions D6 to D9, log entry 10). -/
def Obligations.DecodeInvertsEncode : Prop :=
  ∀ i : Instr, i.WellFormed →
    decodeWord (encodeWord i) = i ∧ ∀ rest : List Byte, decode (encode i ++ rest) = .ok (i, rest)

/-- Every word decodes to a well-formed instruction that encodes back to it: decoding is total and drops no bit
(30_encoding.md R58; which word is which instruction, and which are fault words, rests on the spec's decisions D6 to
D10, D17 and D18, log entry 10). -/
def Obligations.EncodeInvertsDecode : Prop :=
  ∀ w : Word, (decodeWord w).WellFormed ∧ encodeWord (decodeWord w) = w

/-- The faulting words are exactly the ranges of the table of 30_encoding.md R71, with the verdict it gives them; no
other word raises either fault. The ranges rest on the spec's decisions D6, D7, D8, D10, D17, D18 (log entry 10). -/
def Obligations.ReservedRangesFaultAndNoOthers : Prop :=
  ∀ s : State, Aligned s →
    (UnimplementedWord (s.wordAt s.pc) → step s = .fault (.unimplementedOpcode ⟨s.pc, s.wordAt s.pc⟩)) ∧
    (ByteFormWord (s.wordAt s.pc) → step s = .fault (.undefinedByteForm ⟨s.pc, s.wordAt s.pc⟩)) ∧
    (¬ UnimplementedWord (s.wordAt s.pc) → ¬ ByteFormWord (s.wordAt s.pc) →
      ∀ site, step s ≠ .fault (.unimplementedOpcode site) ∧ step s ≠ .fault (.undefinedByteForm site))

/-- Words written out bit by bit from the two formats decode to the instruction they stand for (30_encoding.md
sections 2 and 4; a sanity statement). Every one of them rests on the encoding numbers the spec marks as its own, its
decisions D6 to D9, and the two fault words on D17 and D10 (log entry 10). -/
def Obligations.WrittenOutWordsDecode : Prop :=
  decodeWord 0b1001_1010_01_1_1_1111 = .cmp 10 .indexed .byte .indexed 15 ∧
  decodeWord 0b0100_0100_01_0_0_0101 = .mov 4 .indexed .word .register 5 ∧
  decodeWord 0b1000_0010_11_0_0_0110 = .sub 2 .postInc .word .register 6 ∧
  decodeWord 0b000100_000_0_11_0111 = .rrc .word .postInc 7 ∧
  decodeWord 0b000100_100_1_00_0101 = .push .byte .register 5 ∧
  decodeWord 0b000100_101_0_11_0000 = .call .word .postInc 0 ∧
  decodeWord 0b000100_001_1_00_0101 = .swpbByte .register 5 ∧
  decodeWord 0b0010_0000_0000_0001 = .unclassified2000 1

/-! ## The step -/

/-- When the two bytes at an even PC decode to `i`, the step is `exec i` at the same state: nothing is done around it,
and `exec` itself moves the PC past the instruction word (00_scope.md R3, R8). -/
def Obligations.StepRunsTheDecodedInstruction : Prop :=
  ∀ (s : State) (i : Instr), Aligned s → decode [s.byteAt s.pc, s.byteAt (s.pc + 1)] = .ok (i, []) → step s = exec i s

/-- A fetch at an odd PC faults before any read (30_encoding.md R51; the spec's decision D25). -/
def Obligations.OddPcFaults : Prop :=
  ∀ s : State, s.pc.getLsbD 0 = true → step s = .fault (.misalignedFetch s.pc)

/-- A completed instruction leaves the PC past its words, unless it wrote R0 (10_state.md R18, R20; 30_encoding.md R65;
the count of extension words rests on the spec's decision D14, the wrap on D32). -/
def Obligations.CompletedInstructionMovesPcByItsLength : Prop :=
  ∀ (i : Instr) (s t : State), exec i s = .next t → writesPc i = false →
    t.reg 0 = s.reg 0 + BitVec.ofNat 16 i.length

/-- A word stored at an even PC is the one the next step runs (20_memory.md R49, derived there). -/
def Obligations.FetchSeesTheStoredWord : Prop :=
  ∀ (s : State) (i : Instr), Memory.wf s.mem → Aligned s → i.WellFormed →
    step (s.setWord s.pc (encodeWord i)) = exec i (s.setWord s.pc (encodeWord i))

/-- No instruction is refused. -/
def Obligations.NothingIsRefused : Prop :=
  ∀ (i : Instr) (s : State) (r : Refusal), exec i s ≠ .refused r ∧ step s ≠ .refused r

/-! ## Registers and written marks -/

/-- Every register, R0 to R3 included, reads as last written and a write leaves the others: none is hardwired
(10_state.md R16). The clauses on the written mark, set by the write and kept for the other registers, are 10_state.md
R17, which is the spec's decision D5. -/
def Obligations.EveryRegisterReadsAsWritten : Prop :=
  ∀ (s : State) (r q : Reg) (v : Word),
    (s.setReg r v).reg r = v ∧ (q ≠ r → (s.setReg r v).reg q = s.reg q ∧ (s.setReg r v).isWritten q = s.isWritten q) ∧
      (s.setReg r v).isWritten r = true

/-- Construction, for every value of the two OPEN parameters (10_state.md R35; the spec's decisions D3, D4, D5): R0, R1,
R2 as stated, all flags and reserved bits 0, marks set for R0-R2 only, no value for the host in R3-R15, every byte 0. -/
def Obligations.ConstructionLeavesTheStatedState : Prop :=
  ∀ codeStart stackStart : Word,
    let s := State.construct codeStart stackStart
    s.reg 0 = codeStart ∧ s.reg 1 = stackStart ∧ s.reg 2 = 0 ∧
      s.carry = false ∧ s.zero = false ∧ s.neg = false ∧ s.overflow = false ∧
      (∀ r : Reg, s.isWritten r = decide (r.val < 3)) ∧ (∀ r : Reg, 3 ≤ r.val → hostReadReg s r = none) ∧
      ∀ a : Word, s.byteAt a = 0

/-- The model's reset is a launch state (70_reset_and_hazards.md R158) of the spec's example instance: its PC, its SP and
the zeros and written marks of R3-R15 are the model's choice (DESIGN CHOICE, log entries 1, 2 and 3; the spec's
decisions D3 and D4 leave the first two OPEN, and D5 is on R3-R15 and the marks). -/
def Obligations.ResetIsTheChosenLaunchState : Prop :=
  State.reset = assignRegs [(3, 0), (4, 0), (5, 0), (6, 0), (7, 0), (8, 0), (9, 0), (10, 0), (11, 0), (12, 0), (13, 0),
      (14, 0), (15, 0)] (State.construct 0xC000 0x0400) ∧
    AllWritten State.reset

/-- An instruction whose source names a register without a written mark, as its value or as its address, faults,
whatever its destination (10_state.md R17, 40_operand_resolver.md R93; the spec's decision D5). R3, R2 in modes 1 to 3
and the PC are no such source. -/
def Obligations.UnwrittenSourceRegisterFaults : Prop :=
  ∀ (reg dreg : Reg) (as : Mode) (bw : Width) (ad : DstMode) (i : Instr) (s : State),
    i ∈ [Instr.mov reg as bw ad dreg, .add reg as bw ad dreg, .addc reg as bw ad dreg, .subc reg as bw ad dreg,
      .sub reg as bw ad dreg, .cmp reg as bw ad dreg, .rrc bw as reg, .swpb .word as reg, .rra bw as reg,
      .sxt .word as reg, .push bw as reg, .call .word as reg] →
    Aligned s → reg ≠ 0 → reg ≠ 3 → (reg = 2 → as = .register) → s.isWritten reg = false →
    exec i s = .fault (.uninitializedRegister (siteOf i s) reg)

/-- After the source is read: an ALU instruction faults when its destination register has no written mark, and MOV to it
completes; every binary instruction faults when the base of its indexed destination has none (10_state.md R17,
40_operand_resolver.md R93, 42_binary.md R108; the spec's decisions D5 and D35). -/
def Obligations.UnwrittenDestinationFaultsOnlyWhenRead : Prop :=
  ∀ (sreg dreg : Reg) (as : Mode) (bw : Width) (i : Instr) (s : State), SourceReady as bw sreg s →
    ((binaryTable sreg as bw .register dreg s).state.isWritten dreg = false →
      (i ∈ [Instr.add sreg as bw .register dreg, .addc sreg as bw .register dreg, .subc sreg as bw .register dreg,
          .sub sreg as bw .register dreg, .cmp sreg as bw .register dreg] →
        exec i s = .fault (.uninitializedRegister (siteOf i s) dreg)) ∧
      Completes (exec (.mov sreg as bw .register dreg) s)) ∧
    ((binaryTable sreg as bw .indexed dreg s).state.isWritten dreg = false →
      i ∈ [Instr.mov sreg as bw .indexed dreg, .add sreg as bw .indexed dreg, .addc sreg as bw .indexed dreg,
        .subc sreg as bw .indexed dreg, .sub sreg as bw .indexed dreg, .cmp sreg as bw .indexed dreg] →
      exec i s = .fault (.uninitializedRegister (siteOf i s) dreg))

/-- No completed step clears a written mark (10_state.md R17; the spec's decision D5). -/
def Obligations.WrittenMarksAreNeverCleared : Prop :=
  ∀ (s t : State) (r : Reg), step s = .next t → s.isWritten r = true → t.isWritten r = true

/-- Once every register is written, as after the model's reset, every step keeps it so and none faults for an unwritten
register (10_state.md R17, 70_reset_and_hazards.md R150; the spec's decision D5). -/
def Obligations.AllWrittenIsKeptAndNeverFaults : Prop :=
  ∀ s : State, AllWritten s →
    (∀ t, step s = .next t → AllWritten t) ∧ ∀ site r, step s ≠ .fault (.uninitializedRegister site r)

/-! ## Memory -/

/-- Byte accesses are legal at every address and touch one byte (20_memory.md R36). -/
def Obligations.ByteAccessTouchesOneByte : Prop :=
  ∀ (site : Site) (s : State) (a v : Word), Memory.wf s.mem →
    loadMem site .byte a s = .ok (zext16 (s.byteAt a)) ∧
    ∃ t, storeMem site .byte a v s = .ok t ∧ t.byteAt a = v.extractLsb' 0 8 ∧
      ∀ b : Word, b ≠ a → t.byteAt b = s.byteAt b

/-- Words are little-endian wherever they lie below 0xFFFF, for reads, writes, mixed widths and fetches
(20_memory.md R37; that a fetch also moves the PC by 2 is 30_encoding.md R50). -/
def Obligations.WordAccessIsLittleEndian : Prop :=
  ∀ (site : Site) (s : State) (a v : Word), Memory.wf s.mem → a ≠ 0xFFFF →
    loadMem site .word a s = .ok (s.byteAt (a + 1) ++ s.byteAt a) ∧
    (∃ t, storeMem site .word a v s = .ok t ∧ t.byteAt a = v.extractLsb' 0 8 ∧ t.byteAt (a + 1) = v.extractLsb' 8 8 ∧
      (∀ b : Word, b ≠ a → b ≠ a + 1 → t.byteAt b = s.byteAt b) ∧
      loadMem site .word a t = .ok v ∧ loadMem site .byte a t = .ok (zext16 (v.extractLsb' 0 8))) ∧
    (a = s.pc → Aligned s → fetchWord site.pc s = .ok (s.byteAt (a + 1) ++ s.byteAt a, s.setReg 0 (s.pc + 2)))

/-- A word access at 0xFFFF faults: as a read, as a write, as a source operand of any form, as a destination operand,
and as the store of PUSH and CALL (20_memory.md R38, 43_unary.md R122, R125; the spec's decision D24). -/
def Obligations.WordAccessAtTopFaults : Prop :=
  (∀ (site : Site) (v : Word) (s : State),
    loadMem site .word 0xFFFF s = .error (.wordAccessAtTop site 0xFFFF) ∧
    storeMem site .word 0xFFFF v s = .error (.wordAccessAtTop site 0xFFFF)) ∧
  (∀ (reg dreg : Reg) (as : Mode) (ad : DstMode) (i : Instr) (s : State),
    i ∈ [Instr.mov reg as .word ad dreg, .add reg as .word ad dreg, .addc reg as .word ad dreg,
      .subc reg as .word ad dreg, .sub reg as .word ad dreg, .cmp reg as .word ad dreg, .rrc .word as reg,
      .swpb .word as reg, .rra .word as reg, .sxt .word as reg, .push .word as reg, .call .word as reg] →
    Aligned s → BaseWritten s (srcBase as reg) → srcLocation (s.setReg 0 (s.pc + 2)) as reg = .mem 0xFFFF →
    exec i s = .fault (.wordAccessAtTop (siteOf i s) 0xFFFF)) ∧
  (∀ (sreg dreg : Reg) (as : Mode) (ad : DstMode) (i : Instr) (s : State),
    i ∈ [Instr.mov sreg as .word ad dreg, .add sreg as .word ad dreg, .addc sreg as .word ad dreg,
      .subc sreg as .word ad dreg, .sub sreg as .word ad dreg, .cmp sreg as .word ad dreg] →
    BinaryReady sreg as .word ad dreg s → (binaryTable sreg as .word ad dreg s).loc = .mem 0xFFFF →
    exec i s = .fault (.wordAccessAtTop (siteOf i s) 0xFFFF)) ∧
  ∀ (as : Mode) (bw : Width) (reg : Reg) (i : Instr) (s : State),
    i = .push bw as reg ∨ (bw = .word ∧ i = .call bw as reg) →
    SourceReady as bw reg s → (unaryTable as bw reg s).state.reg 1 = 1 →
    exec i s = .fault (.wordAccessAtTop (siteOf i s) 0xFFFF)

/-! ## The operand resolver -/

/-- The resolver's role check (40_operand_resolver.md R74): a destination mode other than 0 and 1 faults before anything
else, a source never does, and no instruction can supply such a mode. -/
def Obligations.RoleCheckGuardsDestinationModes : Prop :=
  (∀ (site : Site) (mode : Mode) (reg : Reg) (s : State), mode ≠ .register → mode ≠ .indexed →
    resolve site .dst mode reg s = .error (.unsupportedAddressingMode site .dst mode)) ∧
  (∀ (site site' : Site) (role : Role) (mode mode' : Mode) (reg : Reg) (s : State),
    resolve site .src mode reg s ≠ .error (.unsupportedAddressingMode site' role mode')) ∧
  ∀ (i : Instr) (s : State) (site : Site) (role : Role) (mode : Mode),
    exec i s ≠ .fault (.unsupportedAddressingMode site role mode)

/-- In every mode of every register a source operand lies where the table of 40_operand_resolver.md R95 says and changes
what it says (derived there from R76 to R85; the spec's decisions D11, D13 and D32), if its base register is written
and a fetch it needs is even. -/
def Obligations.SourceOperandsFollowTheTable : Prop :=
  ∀ (site : Site) (as : Mode) (reg : Reg) (s : State),
    BaseWritten s (srcBase as reg) → (as = .indexed → reg ≠ 3 → Aligned s) →
    resolve site .src as reg s = .ok (srcLocation s as reg, afterSrc s as reg)

/-- In both modes of every register, R2 and R3 included, a destination operand is not substituted
(40_operand_resolver.md R90, R77; the spec's decisions D11, D12 and, for the wrap, D32). -/
def Obligations.DestinationsAreNeverSubstituted : Prop :=
  ∀ (site : Site) (ad : DstMode) (reg : Reg) (s : State),
    BaseWritten s (dstBase ad reg) → (ad = .indexed → Aligned s) →
    resolve site .dst (dstMode ad) reg s = .ok (dstLocation s ad reg, afterDst s ad)

/-- R3 as a source is 0, 1, 2 or 0xFFFF, in every state, with no memory access and no extension word
(40_operand_resolver.md R82). -/
def Obligations.SourceR3IsAlwaysAConstant : Prop :=
  ∀ (site : Site) (s : State),
    (resolve site .src .register 3 s = .ok (.const 0, s) ∧ resolve site .src .indexed 3 s = .ok (.const 1, s) ∧
      resolve site .src .indirect 3 s = .ok (.const 2, s) ∧ resolve site .src .postInc 3 s = .ok (.const 0xFFFF, s)) ∧
    (readLoc site (.const 0) .word s = .ok 0 ∧ readLoc site (.const 1) .word s = .ok 1 ∧
      readLoc site (.const 2) .word s = .ok 2 ∧ readLoc site (.const 0xFFFF) .word s = .ok 0xFFFF) ∧
    (readLoc site (.const 0) .byte s = .ok 0 ∧ readLoc site (.const 1) .byte s = .ok 1 ∧
      readLoc site (.const 2) .byte s = .ok 2 ∧ readLoc site (.const 0xFFFF) .byte s = .ok 0xFF)

/-- R2 as a source: mode 0 the live SR, at byte width its low 8 bits; mode 1 absolute, without reading R2; modes 2 and 3
the constants 4 and 8 with nothing changed (40_operand_resolver.md R83, R84, R85). -/
def Obligations.SourceR2IsLiveAbsoluteOrConstant : Prop :=
  ∀ (site : Site) (s : State),
    resolve site .src .indirect 2 s = .ok (.const 4, s) ∧ resolve site .src .postInc 2 s = .ok (.const 8, s) ∧
    (Aligned s → resolve site .src .indexed 2 s = .ok (.mem (s.wordAt s.pc), s.setReg 0 (s.pc + 2))) ∧
    resolve site .src .register 2 s = .ok (.reg 2, s) ∧
    (s.isWritten 2 = true → readLoc site (.reg 2) .word s = .ok (s.reg 2) ∧
      readLoc site (.reg 2) .byte s = .ok ((s.reg 2).extractLsb' 0 8 |>.setWidth 16))

/-- Mode 3 adds 2 to the PC and 1 to every other register, SP included, modulo 2^16, and the Location keeps the old
address (40_operand_resolver.md R79, R80, R81; R81 is the spec's decision D13, the
wrap D32, the written mark D5). R2 and R3 are constants there. -/
def Obligations.PostIncrementIsTwoForPcElseOne : Prop :=
  ∀ (site : Site) (reg : Reg) (s : State), reg ≠ 2 → reg ≠ 3 → s.isWritten reg = true →
    ∃ t, resolve site .src .postInc reg s = .ok (.mem (s.reg reg), t) ∧
      (reg = 0 → t.reg 0 = s.reg 0 + 2) ∧ (reg ≠ 0 → t.reg reg = s.reg reg + 1) ∧ t.isWritten reg = true ∧
      (∀ q, q ≠ reg → t.reg q = s.reg q ∧ t.isWritten q = s.isWritten q) ∧ t.mem = s.mem ∧ t.draws = s.draws

/-- A register write through a Location: a word replaces the register, a byte clears its high byte, for every register
(40_operand_resolver.md R87). -/
def Obligations.ByteWriteToRegisterClearsHighByte : Prop :=
  ∀ (site : Site) (r : Reg) (v : Word) (s : State),
    (∃ t, writeLoc site (.reg r) .word v s = .ok t ∧ t.reg r = v) ∧
    ∃ t, writeLoc site (.reg r) .byte v s = .ok t ∧ t.reg r = (v.extractLsb' 0 8).setWidth 16

/-- A memory write through a Location: a byte leaves the byte at a+1, a word writes both, a word at 0xFFFF faults
(40_operand_resolver.md R88). -/
def Obligations.MemoryWriteTouchesItsWidth : Prop :=
  ∀ (site : Site) (a v : Word) (s : State), Memory.wf s.mem →
    (∃ t, writeLoc site (.mem a) .byte v s = .ok t ∧ t.byteAt a = v.extractLsb' 0 8 ∧
      t.byteAt (a + 1) = s.byteAt (a + 1)) ∧
    (a ≠ 0xFFFF → ∃ t, writeLoc site (.mem a) .word v s = .ok t ∧ t.byteAt a = v.extractLsb' 0 8 ∧
      t.byteAt (a + 1) = v.extractLsb' 8 8) ∧
    (a = 0xFFFF → writeLoc site (.mem a) .word v s = .error (.wordAccessAtTop site a))

/-- RRC, SWPB, RRA and SXT fault when their operand is a constant generator, at every width they have
(40_operand_resolver.md R89, 43_unary.md R117; the spec's decision D16). -/
def Obligations.WriteToConstantOperandFaults : Prop :=
  ∀ (as : Mode) (bw : Width) (reg : Reg) (i : Instr) (s : State),
    i ∈ [Instr.rrc bw as reg, .swpb .word as reg, .rra bw as reg, .sxt .word as reg] →
    (reg = 3 ∨ (reg = 2 ∧ (as = .indirect ∨ as = .postInc))) →
    exec i s = .fault (.constantDestination (siteOf i s))

/-! ## The ALU and the flags -/

/-- The ALU's result and its N, Z, C and V at both widths, on any 16-bit inputs (41_alu.md R98 to R102). -/
def Obligations.AluFlagsFollowTheirDefinitions : Prop :=
  ∀ (w : Width) (src dst : Word) (cin : Bool),
    let r := addWithCarry w src dst cin
    let sum := low w src + low w dst + cin.toNat
    r.result.toNat = sum % 2 ^ bits w ∧
    (r.n = true ↔ 2 ^ (bits w - 1) ≤ sum % 2 ^ bits w) ∧
    (r.z = true ↔ sum % 2 ^ bits w = 0) ∧
    (r.c = true ↔ 2 ^ bits w ≤ sum) ∧
    (r.v = true ↔ src.getLsbD (bits w - 1) = dst.getLsbD (bits w - 1) ∧
      r.result.getLsbD (bits w - 1) ≠ dst.getLsbD (bits w - 1))

/-- For ADD and ADDC, V is set exactly when the signed sum does not fit the width (41_alu.md R104, derived there). -/
def Obligations.AddOverflowIsSignedOverflow : Prop :=
  ∀ (w : Width) (src dst : Word) (cin : Bool),
    (addWithCarry w src dst cin).v = true ↔ ¬ InSignedRange w (signed w src + signed w dst + cin.toNat)

/-- SUB and CMP compute `dst - src`: result, C as no borrow, Z as equality, V as signed overflow (41_alu.md R103, R104;
carry-in 1 by 90_conflicts.md C1). -/
def Obligations.SubtractionLaws : Prop :=
  ∀ (w : Width) (src dst : Word),
    let r := subWithCarry w src dst true
    r = addWithCarry w (~~~src &&& mask w) dst true ∧
    (r.result.toNat : Int) = ((low w dst : Int) - low w src) % 2 ^ bits w ∧
    (r.c = true ↔ low w src ≤ low w dst) ∧ (r.z = true ↔ low w dst = low w src) ∧
    (r.v = true ↔ ¬ InSignedRange w (signed w dst - signed w src))

/-- SUBC computes `dst - src - 1 + C`, and C after it is no borrow (41_alu.md R103, R104). -/
def Obligations.SubtractWithCarryLaws : Prop :=
  ∀ (w : Width) (src dst : Word) (cin : Bool),
    let r := subWithCarry w src dst cin
    (r.result.toNat : Int) = ((low w dst : Int) - low w src - 1 + cin.toNat) % 2 ^ bits w ∧
    (r.c = true ↔ low w src + 1 ≤ low w dst + cin.toNat)

/-- `subtract(x, x)` gives 0 with Z = 1, C = 1, V = 0, N = 0 for every x at both widths (41_alu.md R104). -/
def Obligations.SubtractSelfIsZero : Prop :=
  ∀ (w : Width) (x : Word),
    subWithCarry w x x true = { result := 0, c := true, z := true, n := false, v := false }

/-- `SetFlags` writes C, Z, N at bits 0, 1, 2 and V at bit 8 where it is named, and no other bit of R2
(10_state.md R23; the positions are the spec's decision D1, log entry 11). -/
def Obligations.SetFlagsWritesOnlyNamedBits : Prop :=
  ∀ (s : State) (c z n : Bool) (v : Option Bool),
    let t := s.setFlags c z n v
    t.carry = c ∧ t.zero = z ∧ t.neg = n ∧ (∀ b, v = some b → t.overflow = b) ∧ (v = none → t.overflow = s.overflow) ∧
      (∀ k, k ≠ 0 → k ≠ 1 → k ≠ 2 → k ≠ 8 → t.sr.getLsbD k = s.sr.getLsbD k) ∧ ∀ q, q ≠ 2 → t.reg q = s.reg q

/-! ## What each instruction does, in every addressing form, at every width it has -/

/-- The operand steps of the two templates, by the tables, when they meet no fault (42_binary.md R106, 43_unary.md R116,
40_operand_resolver.md R91; the order is the spec's decisions D13, D14 and D37). -/
def Obligations.OperandStepsFollowTheTables : Prop :=
  (∀ (site : Site) (sreg : Reg) (as : Mode) (bw : Width) (ad : DstMode) (dreg : Reg) (s : State),
    BinaryReady sreg as bw ad dreg s →
    binaryOperands site sreg as bw ad dreg s = .ok (binaryTable sreg as bw ad dreg s)) ∧
  ∀ (site : Site) (as : Mode) (bw : Width) (reg : Reg) (s : State), SourceReady as bw reg s →
    unaryOperand site as bw reg s = .ok (unaryTable as bw reg s)

/-- MOV stores the source value and touches no flag; it does not read its destination (42_binary.md R108; the spec's
decision D35). -/
def Obligations.MovStoresTheSourceValue : Prop :=
  ∀ (sreg : Reg) (as : Mode) (bw : Width) (ad : DstMode) (dreg : Reg) (s : State),
    BinaryReady sreg as bw ad dreg s →
    let o := binaryTable sreg as bw ad dreg s
    Writable o.loc bw →
    exec (.mov sreg as bw ad dreg) s = .next (putAt o.state o.loc bw o.value)

/-- ADD stores the sum, then sets the four flags (42_binary.md R107, R109; the order is the spec's decision D15). -/
def Obligations.AddStoresTheSumThenSetsFlags : Prop :=
  ∀ (sreg : Reg) (as : Mode) (bw : Width) (ad : DstMode) (dreg : Reg) (s : State),
    BinaryReady sreg as bw ad dreg s →
    let o := binaryTable sreg as bw ad dreg s
    Readable o.state o.loc bw →
    let r := addWithCarry bw o.value (valueAt o.state o.loc bw) false
    exec (.add sreg as bw ad dreg) s = .next ((putAt o.state o.loc bw r.result).setFlags r.c r.z r.n (some r.v))

/-- ADDC adds the C flag as it stood before the instruction (42_binary.md R107, R110; D15; C is bit 0 of
R2 by D1, log entry 11). -/
def Obligations.AddcAddsTheCarryFlag : Prop :=
  ∀ (sreg : Reg) (as : Mode) (bw : Width) (ad : DstMode) (dreg : Reg) (s : State),
    BinaryReady sreg as bw ad dreg s →
    let o := binaryTable sreg as bw ad dreg s
    Readable o.state o.loc bw →
    let r := addWithCarry bw o.value (valueAt o.state o.loc bw) ((s.reg 2).getLsbD 0)
    exec (.addc sreg as bw ad dreg) s = .next ((putAt o.state o.loc bw r.result).setFlags r.c r.z r.n (some r.v))

/-- SUBC adds the masked complement of the source and the C flag (42_binary.md R107, R111; D15; C is bit 0
of R2 by D1, log entry 11). -/
def Obligations.SubcAddsTheComplementAndCarry : Prop :=
  ∀ (sreg : Reg) (as : Mode) (bw : Width) (ad : DstMode) (dreg : Reg) (s : State),
    BinaryReady sreg as bw ad dreg s →
    let o := binaryTable sreg as bw ad dreg s
    Readable o.state o.loc bw →
    let r := addWithCarry bw (~~~o.value &&& mask bw) (valueAt o.state o.loc bw) ((s.reg 2).getLsbD 0)
    exec (.subc sreg as bw ad dreg) s = .next ((putAt o.state o.loc bw r.result).setFlags r.c r.z r.n (some r.v))

/-- SUB adds the masked complement of the source and 1 (42_binary.md R107, R112; D15, C1). -/
def Obligations.SubAddsTheComplementAndOne : Prop :=
  ∀ (sreg : Reg) (as : Mode) (bw : Width) (ad : DstMode) (dreg : Reg) (s : State),
    BinaryReady sreg as bw ad dreg s →
    let o := binaryTable sreg as bw ad dreg s
    Readable o.state o.loc bw →
    let r := addWithCarry bw (~~~o.value &&& mask bw) (valueAt o.state o.loc bw) true
    exec (.sub sreg as bw ad dreg) s = .next ((putAt o.state o.loc bw r.result).setFlags r.c r.z r.n (some r.v))

/-- CMP sets the flags of SUB and writes nothing back (42_binary.md R113). -/
def Obligations.CmpSetsTheFlagsOfSubOnly : Prop :=
  ∀ (sreg : Reg) (as : Mode) (bw : Width) (ad : DstMode) (dreg : Reg) (s : State),
    BinaryReady sreg as bw ad dreg s →
    let o := binaryTable sreg as bw ad dreg s
    Readable o.state o.loc bw →
    let r := addWithCarry bw (~~~o.value &&& mask bw) (valueAt o.state o.loc bw) true
    exec (.cmp sreg as bw ad dreg) s = .next (o.state.setFlags r.c r.z r.n (some r.v))

/-- RRC rotates right through C (43_unary.md R118): C becomes bit 0, Z and N follow the result, V is cleared.
The write before the flags is the spec's decision D15; C is bit 0 of R2 by D1, log entry 11. -/
def Obligations.RrcRotatesThroughCarry : Prop :=
  ∀ (bw : Width) (as : Mode) (reg : Reg) (s : State), SourceReady as bw reg s →
    let o := unaryTable as bw reg s
    Writable o.loc bw →
    let r := (o.value >>> 1) ||| (if (s.reg 2).getLsbD 0 then signMask bw else 0)
    exec (.rrc bw as reg) s =
      .next ((putAt o.state o.loc bw r).setFlags (o.value.getLsbD 0) (r == 0) (r &&& signMask bw != 0) (some false))

/-- SWPB exchanges the two bytes and changes no flag (43_unary.md R119). -/
def Obligations.SwpbExchangesBytes : Prop :=
  ∀ (as : Mode) (reg : Reg) (s : State), SourceReady as .word reg s →
    let o := unaryTable as .word reg s
    Writable o.loc .word →
    exec (.swpb .word as reg) s =
      .next (putAt o.state o.loc .word (o.value.extractLsb' 0 8 ++ o.value.extractLsb' 8 8))

/-- RRA shifts right and keeps the sign bit of the width (43_unary.md R120; the write before the flags is the spec's
decision D15). -/
def Obligations.RraKeepsTheSign : Prop :=
  ∀ (bw : Width) (as : Mode) (reg : Reg) (s : State), SourceReady as bw reg s →
    let o := unaryTable as bw reg s
    Writable o.loc bw →
    let r := (o.value >>> 1) ||| (o.value &&& signMask bw)
    exec (.rra bw as reg) s =
        .next ((putAt o.state o.loc bw r).setFlags (o.value.getLsbD 0) (r == 0) (r &&& signMask bw != 0) (some false)) ∧
      r.getLsbD (bits bw - 1) = o.value.getLsbD (bits bw - 1)

/-- SXT copies bit 7 into the high byte; C is the complement of Z and V is kept (43_unary.md R121; the spec's
decisions D15 and D19). -/
def Obligations.SxtExtendsTheSign : Prop :=
  ∀ (as : Mode) (reg : Reg) (s : State), SourceReady as .word reg s →
    let o := unaryTable as .word reg s
    Writable o.loc .word →
    let r : Word := (o.value.extractLsb' 0 8).signExtend 16
    exec (.sxt .word as reg) s =
      .next ((putAt o.state o.loc .word r).setFlags (r != 0) (r == 0) (r.getLsbD 15) none)

/-- PUSH reads its operand, moves SP down by 2 and stores the word at the new SP; no flag changes (43_unary.md R122,
R123, R127; R123 and R127 are the spec's decisions D21 and D20). -/
def Obligations.PushStoresTheWordBelowSp : Prop :=
  ∀ (as : Mode) (reg : Reg) (s : State), SourceReady as .word reg s →
    let o := unaryTable as .word reg s
    let sp := o.state.reg 1 - 2
    sp ≠ 0xFFFF →
    exec (.push .word as reg) s = .next ((o.state.setReg 1 sp).setWord sp o.value)

/-- PUSH.B also moves SP by 2; the low byte is the operand's and the high byte is free: the next `draw8()`, whatever
it is (43_unary.md R124; the spec's decisions D20, D21 and D22, log entry 4). -/
def Obligations.PushByteStoresAFreeHighByte : Prop :=
  ∀ (as : Mode) (reg : Reg) (s : State), SourceReady as .byte reg s →
    let o := unaryTable as .byte reg s
    let sp := o.state.reg 1 - 2
    sp ≠ 0xFFFF →
    exec (.push .byte as reg) s =
      .next ((State.setReg { o.state with draws := o.state.draws + 1 } 1 sp).setWord sp
        (Config.draw8 o.state.draws ++ o.value.extractLsb' 0 8))

/-- CALL pushes the PC past its words and jumps to the operand's value (43_unary.md R125, R126, R127; D20, D21). -/
def Obligations.CallPushesThePcAndJumps : Prop :=
  ∀ (as : Mode) (reg : Reg) (s : State), SourceReady as .word reg s →
    let o := unaryTable as .word reg s
    let sp := o.state.reg 1 - 2
    sp ≠ 0xFFFF →
    o.state.reg 0 = s.reg 0 + BitVec.ofNat 16 (Instr.call .word as reg).length ∧
    exec (.call .word as reg) s = .next (((o.state.setReg 1 sp).setWord sp (o.state.reg 0)).setReg 0 o.value)

/-- The words without a handler fault by name in every state, and so does a byte form of SWPB, SXT or CALL
(60_exceptions.md R132, R133; 30_encoding.md R57, R59, R60, R62; the spec's decisions D7, D8, D10, D17, D18). -/
def Obligations.ReservedInstructionsFault : Prop :=
  (∀ (i : Instr) (s : State) (b7 : BitVec 7) (b10 : BitVec 10) (b11 : BitVec 11) (b12 : BitVec 12) (b13 : BitVec 13)
      (b14 : BitVec 14) (as : Mode) (reg : Reg),
    i ∈ [Instr.unclassified0000 b12, .unclassified1400 b10, .unclassified1800 b11, .unclassified2000 b13,
      .unaryUop6 b7, .unaryUop7 b7, .swpbByte as reg, .swpb .byte as reg, .binaryOpAB b13, .binaryOpCF b14] →
    exec i s = .fault (.unimplementedOpcode ⟨s.pc, encodeWord i⟩)) ∧
  ∀ (i : Instr) (s : State) (as : Mode) (reg : Reg),
    i ∈ [Instr.sxtByte as reg, .callByte as reg, .sxt .byte as reg, .call .byte as reg] →
    exec i s = .fault (.undefinedByteForm ⟨s.pc, encodeWord i⟩)

/-! ## Exactly when an instruction completes, and which fault comes first -/

/-- At an even PC a binary instruction completes exactly when its operand steps meet no fault and its destination can be
used (60_exceptions.md R137; the spec's decisions D5, D24, D27). -/
def Obligations.BinaryCompletesExactlyWhenReady : Prop :=
  ∀ (sreg : Reg) (as : Mode) (bw : Width) (ad : DstMode) (dreg : Reg) (s : State), Aligned s →
    let o := binaryTable sreg as bw ad dreg s
    (Completes (exec (.mov sreg as bw ad dreg) s) ↔ BinaryReady sreg as bw ad dreg s ∧ Writable o.loc bw) ∧
    ∀ i ∈ [Instr.add sreg as bw ad dreg, .addc sreg as bw ad dreg, .subc sreg as bw ad dreg, .sub sreg as bw ad dreg,
        .cmp sreg as bw ad dreg],
      (Completes (exec i s) ↔ BinaryReady sreg as bw ad dreg s ∧ Readable o.state o.loc bw)

/-- At an even PC a unary instruction completes exactly when its operand steps meet no fault and its result can be
stored (60_exceptions.md R137; the spec's decisions D5, D16, D17, D18, D24, D27). -/
def Obligations.UnaryCompletesExactlyWhenReady : Prop :=
  ∀ (as : Mode) (bw : Width) (reg : Reg) (s : State), Aligned s →
    let o := unaryTable as bw reg s
    (∀ i ∈ [Instr.rrc bw as reg, .rra bw as reg], (Completes (exec i s) ↔ SourceReady as bw reg s ∧ Writable o.loc bw)) ∧
    (∀ i ∈ [Instr.swpb bw as reg, .sxt bw as reg],
      (Completes (exec i s) ↔ bw = .word ∧ SourceReady as bw reg s ∧ Writable o.loc bw)) ∧
    (Completes (exec (.push bw as reg) s) ↔ SourceReady as bw reg s ∧ o.state.reg 1 - 2 ≠ 0xFFFF) ∧
    (Completes (exec (.call bw as reg) s) ↔ bw = .word ∧ SourceReady as bw reg s ∧ o.state.reg 1 - 2 ≠ 0xFFFF)

/-- Every fault of a step names the address of the instruction and its word, and a misaligned fetch no word
(60_exceptions.md R135; the spec's decision D28). -/
def Obligations.FaultReportNamesItsInstruction : Prop :=
  ∀ (s : State) (f : Fault), step s = .fault f →
    (faultOutputs f).pc = s.pc ∧
      faultWord f = if s.pc.getLsbD 0 then none else some (s.wordAt s.pc)

/-! ## Frames -/

/-- MOV, ADD, ADDC, SUBC and SUB change only: the destination register or the bytes at the destination address, the
register of an `@Rn+` source (by 1, or by 2 for R0), the PC and the flags; MOV no flag at all (42_binary.md R106 to
R112, 40_operand_resolver.md R80, R87, R88; the flags' bits are the spec's decision D1, log entry 11; the marks D5). -/
def Obligations.BinaryWriteBackFrame : Prop :=
  ∀ (sreg : Reg) (as : Mode) (bw : Width) (ad : DstMode) (dreg : Reg) (i : Instr) (s t : State),
    i ∈ [Instr.mov sreg as bw ad dreg, .add sreg as bw ad dreg, .addc sreg as bw ad dreg, .subc sreg as bw ad dreg,
      .sub sreg as bw ad dreg] →
    exec i s = .next t →
    (∀ q : Reg, q ≠ 0 → q ≠ 2 → ¬ (ad = .register ∧ q = dreg) → ¬ (as = .postInc ∧ q = sreg ∧ q ≠ 3) →
      t.reg q = s.reg q ∧ t.isWritten q = s.isWritten q) ∧
    (as = .postInc → sreg ≠ 0 → sreg ≠ 2 → sreg ≠ 3 → ¬ (ad = .register ∧ sreg = dreg) →
      t.reg sreg = s.reg sreg + 1) ∧
    (¬ (ad = .register ∧ dreg = 2) →
      (i = .mov sreg as bw ad dreg → t.reg 2 = s.reg 2) ∧
      ∀ k, k ≠ 0 → k ≠ 1 → k ≠ 2 → k ≠ 8 → (t.reg 2).getLsbD k = (s.reg 2).getLsbD k) ∧
    t.draws = s.draws ∧
    ∀ o, binaryOperands (siteOf i s) sreg as bw ad dreg s = .ok o →
      ∀ b : Word, (∀ a, o.loc = .mem a → b ≠ a ∧ (bw = .word → b ≠ a + 1)) → t.byteAt b = s.byteAt b

/-- CMP changes only the flags, the PC and the register of an `@Rn+` source (42_binary.md R113; the flags' bits are
the spec's decision D1, log entry 11; the marks D5). -/
def Obligations.CmpFrame : Prop :=
  ∀ (sreg : Reg) (as : Mode) (bw : Width) (ad : DstMode) (dreg : Reg) (s t : State),
    exec (.cmp sreg as bw ad dreg) s = .next t →
    (∀ q : Reg, q ≠ 0 → q ≠ 2 → ¬ (as = .postInc ∧ q = sreg ∧ q ≠ 3) →
      t.reg q = s.reg q ∧ t.isWritten q = s.isWritten q) ∧
    (as = .postInc → sreg ≠ 0 → sreg ≠ 2 → sreg ≠ 3 → t.reg sreg = s.reg sreg + 1) ∧
    (∀ k, k ≠ 0 → k ≠ 1 → k ≠ 2 → k ≠ 8 → (t.reg 2).getLsbD k = (s.reg 2).getLsbD k) ∧
    t.draws = s.draws ∧ ∀ b : Word, t.byteAt b = s.byteAt b

/-- RRC, SWPB, RRA and SXT change only their operand's Location, the register of an `@Rn+` operand, the PC and the
flags; SWPB no flag, SXT not V (43_unary.md R117 to R121; V under SXT is the spec's decision D19; the flags'
bits are D1, log entry 11; the marks D5). -/
def Obligations.UnaryWriteBackFrame : Prop :=
  ∀ (bw : Width) (as : Mode) (reg : Reg) (i : Instr) (s t : State),
    i ∈ [Instr.rrc bw as reg, .swpb bw as reg, .rra bw as reg, .sxt bw as reg] →
    exec i s = .next t →
    (∀ q : Reg, q ≠ 0 → q ≠ 2 → ¬ (as = .register ∧ q = reg) → ¬ (as = .postInc ∧ q = reg ∧ q ≠ 3) →
      t.reg q = s.reg q ∧ t.isWritten q = s.isWritten q) ∧
    (as = .postInc → reg ≠ 0 → reg ≠ 2 → reg ≠ 3 → t.reg reg = s.reg reg + 1) ∧
    (¬ (as = .register ∧ reg = 2) →
      (i = .swpb bw as reg → t.reg 2 = s.reg 2) ∧
      (i = .sxt bw as reg → (t.reg 2).getLsbD 8 = (s.reg 2).getLsbD 8) ∧
      ∀ k, k ≠ 0 → k ≠ 1 → k ≠ 2 → k ≠ 8 → (t.reg 2).getLsbD k = (s.reg 2).getLsbD k) ∧
    t.draws = s.draws ∧
    ∀ o, unaryOperand (siteOf i s) as bw reg s = .ok o →
      ∀ b : Word, (∀ a, o.loc = .mem a → b ≠ a ∧ (bw = .word → b ≠ a + 1)) → t.byteAt b = s.byteAt b

/-- PUSH and CALL change only SP, the two bytes of the stack word, the PC and the register of an `@Rn+` operand; no bit
of R2 (43_unary.md R122 to R127; D20, D21, D22; the marks D5). Only PUSH.B draws a free byte. -/
def Obligations.StackFrame : Prop :=
  ∀ (bw : Width) (as : Mode) (reg : Reg) (i : Instr) (s t : State),
    i ∈ [Instr.push bw as reg, .call bw as reg] →
    exec i s = .next t →
    (∀ q : Reg, q ≠ 0 → q ≠ 1 → ¬ (as = .postInc ∧ q = reg ∧ q ≠ 2 ∧ q ≠ 3) →
      t.reg q = s.reg q ∧ t.isWritten q = s.isWritten q) ∧
    (as = .postInc → reg ≠ 0 → reg ≠ 1 → reg ≠ 2 → reg ≠ 3 → t.reg reg = s.reg reg + 1) ∧
    t.reg 1 = (if as = .postInc ∧ reg = 1 then s.reg 1 + 1 else s.reg 1) - 2 ∧
    t.draws = (if i = .push .byte as reg then s.draws + 1 else s.draws) ∧
    ∀ o, unaryOperand (siteOf i s) as bw reg s = .ok o →
      ∀ b : Word, b ≠ o.state.reg 1 - 2 → b ≠ o.state.reg 1 - 2 + 1 → t.byteAt b = s.byteAt b

/-! ## Invariants of every step -/

/-- The memory list stays canonical and the marks of R0, R1 and R2 stay set, from every state that has both
(10_state.md R17, R32, R35; the marks are the spec's decision D5; the canonical form is the model's
own). -/
def Obligations.StepKeepsTheStateInvariant : Prop :=
  ∀ s t : State, Inv s → step s = .next t → Inv t

/-- Every construction, for any CODE_START and STACK_START, and the model's reset meet that invariant
(70_reset_and_hazards.md R148; the reset's values are DESIGN CHOICE, log entries 1 to 3; the marks are the
spec's decision D5). -/
def Obligations.StartStatesMeetTheInvariant : Prop :=
  (∀ codeStart stackStart : Word, Inv (State.construct codeStart stackStart)) ∧ Inv State.reset

/-! ## The host interface -/

/-- A push by the host and the matching pop give the value back and restore SP, for words and bytes; a word access at
0xFFFF by a host operation is refused (60_exceptions.md R144; the spec's decisions D22 and D34). -/
def Obligations.HostPushPopRoundTrips : Prop :=
  ∀ (s : State),
    (Memory.wf s.mem → s.reg 1 - 2 ≠ 0xFFFF →
      (∀ v : Word, ∃ t u, hostPushWord s v = .ok t ∧ t.reg 1 = s.reg 1 - 2 ∧ hostPopWord t = .ok (v, u) ∧
        u.reg 1 = s.reg 1) ∧
      ∀ v : Byte, ∃ t, hostPushByte s v = .ok t ∧ t.reg 1 = s.reg 1 - 2 ∧ (hostPopByte t).1 = v ∧
        (hostPopByte t).2.reg 1 = s.reg 1) ∧
    (s.reg 1 - 2 = 0xFFFF → ∀ (v : Word) (b : Byte),
      hostPushWord s v = .error (.wordAccessAtTop 0xFFFF) ∧ hostPushByte s b = .error (.wordAccessAtTop 0xFFFF)) ∧
    (s.reg 1 = 0xFFFF → hostPopWord s = .error (.wordAccessAtTop 0xFFFF)) ∧
    ∀ v : Word, hostWriteWord s 0xFFFF v = .error (.wordAccessAtTop 0xFFFF)

/-- The loader copies an image that fits to CODE_START upwards and changes nothing else; one that does not fit is
refused (70_reset_and_hazards.md R149; the spec's decision D38). -/
def Obligations.LoadCopiesAnImageThatFits : Prop :=
  ∀ (codeStart : Word) (image : List Byte) (s : State), Memory.wf s.mem →
    (codeStart.toNat + image.length ≤ 0x10000 → ∃ t, load codeStart image s = .ok t ∧
      (∀ (k : Nat) (h : k < image.length), t.byteAt (codeStart + BitVec.ofNat 16 k) = image[k]) ∧
      (∀ b : Word, (∀ k, k < image.length → b ≠ codeStart + BitVec.ofNat 16 k) → t.byteAt b = s.byteAt b) ∧
      t.regs = s.regs ∧ t.written = s.written ∧ t.draws = s.draws) ∧
    (0x10000 < codeStart.toNat + image.length → load codeStart image s = .error (.imageTooLarge image.length))
end

