-- ==== Sys2Proof/Laws/State.lean ====
section
/-!
SUPPORT. What each named update of the state leaves in each field, so that no later proof unfolds a record update.
-/

namespace Sys2Proof.Machine

open Sys2Proof

/-! ## Writing a register -/

@[simp] theorem reg_setReg (s : State) (r q : Reg) (v : Word) :
    (s.setReg r v).reg q = if q = r then v else s.reg q := by
  unfold State.reg State.setReg
  simp only [Vector.getElem_set, Fin.ext_iff, eq_comm]

@[simp] theorem isWritten_setReg (s : State) (r q : Reg) (v : Word) :
    (s.setReg r v).isWritten q = if q = r then true else s.isWritten q := by
  unfold State.isWritten State.setReg
  simp only [Vector.getElem_set, Fin.ext_iff, eq_comm]

@[simp] theorem mem_setReg (s : State) (r : Reg) (v : Word) : (s.setReg r v).mem = s.mem := rfl
@[simp] theorem draws_setReg (s : State) (r : Reg) (v : Word) : (s.setReg r v).draws = s.draws := rfl
@[simp] theorem byteAt_setReg (s : State) (r : Reg) (v a : Word) : (s.setReg r v).byteAt a = s.byteAt a := rfl
@[simp] theorem wordAt_setReg (s : State) (r : Reg) (v a : Word) : (s.setReg r v).wordAt a = s.wordAt a := rfl

/-! ## Storing a byte and a word -/

@[simp] theorem reg_setByte (s : State) (a : Word) (b : Byte) (q : Reg) : (s.setByte a b).reg q = s.reg q := rfl
@[simp] theorem isWritten_setByte (s : State) (a : Word) (b : Byte) (q : Reg) :
    (s.setByte a b).isWritten q = s.isWritten q := rfl
@[simp] theorem mem_setByte (s : State) (a : Word) (b : Byte) :
    (s.setByte a b).mem = Memory.write s.mem a.toNat b := rfl
@[simp] theorem draws_setByte (s : State) (a : Word) (b : Byte) : (s.setByte a b).draws = s.draws := rfl

@[simp] theorem reg_setWord (s : State) (a v : Word) (q : Reg) : (s.setWord a v).reg q = s.reg q := rfl
@[simp] theorem isWritten_setWord (s : State) (a v : Word) (q : Reg) :
    (s.setWord a v).isWritten q = s.isWritten q := rfl
@[simp] theorem mem_setWord (s : State) (a v : Word) :
    (s.setWord a v).mem = Memory.write (Memory.write s.mem a.toNat (lowByte v)) (a + 1).toNat (highByte v) := rfl
@[simp] theorem draws_setWord (s : State) (a v : Word) : (s.setWord a v).draws = s.draws := rfl

/-! ## Moving the PC -/

theorem advancePc_eq (s : State) : s.advancePc = s.setReg 0 (s.reg 0 + 2) := rfl
@[simp] theorem pc_eq (s : State) : s.pc = s.reg 0 := rfl
@[simp] theorem sp_eq (s : State) : s.sp = s.reg 1 := rfl
@[simp] theorem sr_eq (s : State) : s.sr = s.reg 2 := rfl

@[simp] theorem reg_advancePc (s : State) (q : Reg) :
    s.advancePc.reg q = if q = 0 then s.reg 0 + 2 else s.reg q := reg_setReg ..
@[simp] theorem isWritten_advancePc (s : State) (q : Reg) :
    s.advancePc.isWritten q = if q = 0 then true else s.isWritten q := isWritten_setReg ..
@[simp] theorem mem_advancePc (s : State) : s.advancePc.mem = s.mem := rfl
@[simp] theorem draws_advancePc (s : State) : s.advancePc.draws = s.draws := rfl
@[simp] theorem byteAt_advancePc (s : State) (a : Word) : s.advancePc.byteAt a = s.byteAt a := rfl
@[simp] theorem wordAt_advancePc (s : State) (a : Word) : s.advancePc.wordAt a = s.wordAt a := rfl

/-! ## Drawing a free byte -/

@[simp] theorem draw8_fst (s : State) : (draw8 s).1 = Config.draw8 s.draws := rfl
@[simp] theorem reg_draw8 (s : State) (q : Reg) : (draw8 s).2.reg q = s.reg q := rfl
@[simp] theorem isWritten_draw8 (s : State) (q : Reg) : (draw8 s).2.isWritten q = s.isWritten q := rfl
@[simp] theorem mem_draw8 (s : State) : (draw8 s).2.mem = s.mem := rfl
@[simp] theorem draws_draw8 (s : State) : (draw8 s).2.draws = s.draws + 1 := rfl

/-! ## Setting the flags -/

@[simp] theorem reg_setFlags (s : State) (c z n : Bool) (v : Option Bool) (q : Reg) :
    (s.setFlags c z n v).reg q = if q = 2 then flagsInto (s.reg 2) c z n v else s.reg q := reg_setReg ..
@[simp] theorem isWritten_setFlags (s : State) (c z n : Bool) (v : Option Bool) (q : Reg) :
    (s.setFlags c z n v).isWritten q = if q = 2 then true else s.isWritten q := isWritten_setReg ..
@[simp] theorem mem_setFlags (s : State) (c z n : Bool) (v : Option Bool) : (s.setFlags c z n v).mem = s.mem := rfl
@[simp] theorem draws_setFlags (s : State) (c z n : Bool) (v : Option Bool) :
    (s.setFlags c z n v).draws = s.draws := rfl
@[simp] theorem byteAt_setFlags (s : State) (c z n : Bool) (v : Option Bool) (a : Word) :
    (s.setFlags c z n v).byteAt a = s.byteAt a := rfl

@[simp] theorem reg_setAluFlags (s : State) (r : AluOut) (q : Reg) :
    (s.setAluFlags r).reg q = if q = 2 then flagsInto (s.reg 2) r.c r.z r.n (some r.v) else s.reg q :=
  reg_setReg ..
@[simp] theorem isWritten_setAluFlags (s : State) (r : AluOut) (q : Reg) :
    (s.setAluFlags r).isWritten q = if q = 2 then true else s.isWritten q := isWritten_setReg ..
@[simp] theorem mem_setAluFlags (s : State) (r : AluOut) : (s.setAluFlags r).mem = s.mem := rfl
@[simp] theorem draws_setAluFlags (s : State) (r : AluOut) : (s.setAluFlags r).draws = s.draws := rfl
@[simp] theorem byteAt_setAluFlags (s : State) (r : AluOut) (a : Word) :
    (s.setAluFlags r).byteAt a = s.byteAt a := rfl

/-! ## Two states are equal when every accessor agrees -/

theorem State.ext_reg {s t : State} (hr : ∀ q, s.reg q = t.reg q) (hw : ∀ q, s.isWritten q = t.isWritten q)
    (hm : s.mem = t.mem) (hd : s.draws = t.draws) : s = t := by
  obtain ⟨sr, sw, sm, sd⟩ := s
  obtain ⟨tr, tw, tm, td⟩ := t
  have e1 : sr = tr := Vector.ext fun i h => by simpa [State.reg] using hr ⟨i, h⟩
  have e2 : sw = tw := Vector.ext fun i h => by simpa [State.isWritten] using hw ⟨i, h⟩
  simp_all

end Sys2Proof.Machine
end

