-- ==== Sys2Proof/Laws/Flags.lean ====
section
/-!
SUPPORT. The bits of R2: what setting a flag bit leaves of every bit (10_state.md R23, R24), and the ALU's masks.
-/

namespace Sys2Proof.Machine

open Sys2Proof

/-- Setting a bit sets it and keeps every other bit. -/
theorem getLsbD_putBit {v : Word} {pos i : Nat} {b : Bool} (hp : pos < 16) :
    (putBit v pos b).getLsbD i = if i = pos then b else v.getLsbD i := by
  unfold putBit
  cases b <;> simp only [Bool.false_eq_true, if_true, if_false, BitVec.getLsbD_or, BitVec.getLsbD_and,
    BitVec.getLsbD_not, BitVec.getLsbD_twoPow]
  all_goals
    by_cases hi : i < 16
    · by_cases e : i = pos
      · subst e; simp [hi]
      · simp [e, Ne.symm e, hi]
    · have : i ≠ pos := by omega
      simp [hi, this, Ne.symm this, BitVec.getLsbD_of_ge v i (by omega)]

/-- `SetFlags` writes only the bits it names (10_state.md R23). -/
theorem getLsbD_flagsInto (sr : Word) (c z n : Bool) (v : Option Bool) (i : Nat) :
    (flagsInto sr c z n v).getLsbD i =
      if i = 0 then c else if i = 1 then z else if i = 2 then n else
        if i = 8 then v.getD (sr.getLsbD 8) else sr.getLsbD i := by
  cases v <;> simp only [flagsInto, carryPos, zeroPos, negativePos, overflowPos,
    getLsbD_putBit (show 0 < 16 by decide), getLsbD_putBit (show 1 < 16 by decide),
    getLsbD_putBit (show 2 < 16 by decide), getLsbD_putBit (show 8 < 16 by decide), Option.getD] <;> grind

@[simp] theorem mask_word (v : Word) : v &&& mask .word = v := BitVec.and_allOnes

@[simp] theorem mask_mask (w : Width) (v : Word) : v &&& mask w &&& mask w = v &&& mask w := by
  rw [BitVec.and_assoc, BitVec.and_self]

end Sys2Proof.Machine
end

