-- ==== Sys2Proof/Laws/Memory.lean ====
section
/-!
SUPPORT. The memory list: a byte read back is the byte stored, other bytes keep their value, and every operation
keeps the canonical form `Memory.wf` (20_memory.md R36, R37, R46).
-/

namespace Sys2Proof.Machine

open Sys2Proof

/-! ## The canonical form -/

theorem Memory.wf_nil : Memory.wf [] := by simp [Memory.wf]

theorem Memory.wf_tail {x : Host.Cell} {m : List Host.Cell} (h : Memory.wf (x :: m)) : Memory.wf m :=
  ⟨(List.pairwise_cons.1 h.1).2, fun c hc => h.2 c (List.mem_cons_of_mem _ hc)⟩

theorem Memory.wf_head_lt {x : Host.Cell} {m : List Host.Cell} (h : Memory.wf (x :: m)) : ∀ c ∈ m, x.1 < c.1 :=
  (List.pairwise_cons.1 h.1).1

theorem Memory.wf_cons {a : Nat} {b : Byte} {m : List Host.Cell} (hm : Memory.wf m) (ha : a < 65536)
    (hlt : ∀ c ∈ m, a < c.1) : Memory.wf (Memory.cons a b m) := by
  unfold Memory.cons
  split
  · exact hm
  · rename_i hb
    refine ⟨List.pairwise_cons.2 ⟨hlt, hm.1⟩, fun c hc => ?_⟩
    rcases List.mem_cons.1 hc with rfl | hc
    · exact ⟨ha, hb⟩
    · exact hm.2 c hc

/-- Every address of a written list is the written one or was there before. -/
theorem Memory.mem_write {m : List Host.Cell} {a : Nat} {b : Byte} {c : Host.Cell} (h : c ∈ Memory.write m a b) :
    c.1 = a ∨ c ∈ m := by
  induction m with
  | nil =>
    simp only [Memory.write, Memory.cons] at h
    split at h <;> simp_all
  | cons x rest ih =>
    obtain ⟨k, d⟩ := x
    simp only [Memory.write, Memory.cons] at h
    split at h
    · split at h
      · exact .inr h
      · rcases List.mem_cons.1 h with rfl | h
        · exact .inl rfl
        · exact .inr h
    · split at h
      · split at h
        · exact .inr (List.mem_cons_of_mem _ h)
        · rcases List.mem_cons.1 h with rfl | h
          · exact .inl rfl
          · exact .inr (List.mem_cons_of_mem _ h)
      · rcases List.mem_cons.1 h with rfl | h
        · exact .inr (List.mem_cons_self ..)
        · exact (ih h).imp id (List.mem_cons_of_mem _)

/-- Storing a byte inside the address space keeps the canonical form. -/
theorem Memory.wf_write {m : List Host.Cell} {a : Nat} {b : Byte} (hm : Memory.wf m) (ha : a < 65536) :
    Memory.wf (Memory.write m a b) := by
  induction m with
  | nil => exact Memory.wf_cons Memory.wf_nil ha (by simp)
  | cons x rest ih =>
    obtain ⟨k, d⟩ := x
    have hlt := Memory.wf_head_lt hm
    have hrest := ih (Memory.wf_tail hm)
    simp only [Memory.write]
    split
    · refine Memory.wf_cons hm ha fun c hc => ?_
      rcases List.mem_cons.1 hc with rfl | hc
      · assumption
      · exact lt_trans ‹_› (hlt c hc)
    · split
      · refine Memory.wf_cons (Memory.wf_tail hm) ha fun c hc => ?_
        have := hlt c hc
        simp_all
      · refine ⟨List.pairwise_cons.2 ⟨fun c hc => ?_, hrest.1⟩, fun c hc => ?_⟩
        · rcases Memory.mem_write hc with e | hc
          · simp only at *; omega
          · exact hlt c hc
        · rcases List.mem_cons.1 hc with rfl | hc
          · exact hm.2 _ (List.mem_cons_self ..)
          · exact hrest.2 c hc

/-! ## Reading back -/

/-- An address below every entry is unlisted. -/
theorem Memory.read_of_lt {m : List Host.Cell} {a : Nat} (h : ∀ c ∈ m, a < c.1) :
    Memory.read m a = Config.unlistedByte := by
  induction m with
  | nil => rfl
  | cons x rest ih =>
    obtain ⟨k, d⟩ := x
    have : a < k := h _ (List.mem_cons_self ..)
    simp [Memory.read, show k ≠ a by omega, ih fun c hc => h c (List.mem_cons_of_mem _ hc)]

theorem Memory.read_cons {m : List Host.Cell} {a : Nat} {b : Byte} (h : ∀ c ∈ m, a < c.1) :
    Memory.read (Memory.cons a b m) a = b := by
  unfold Memory.cons
  split
  · simp_all [Memory.read_of_lt h]
  · simp [Memory.read]

theorem Memory.read_cons_ne {m : List Host.Cell} {a q : Nat} {b : Byte} (h : q ≠ a) :
    Memory.read (Memory.cons a b m) q = Memory.read m q := by
  unfold Memory.cons
  split
  · rfl
  · simp [Memory.read, Ne.symm h]

/-- A stored byte reads back (20_memory.md R46). -/
theorem Memory.read_write_same {m : List Host.Cell} {a : Nat} {b : Byte} (hm : Memory.wf m) :
    Memory.read (Memory.write m a b) a = b := by
  induction m with
  | nil => exact Memory.read_cons (by simp)
  | cons x rest ih =>
    obtain ⟨k, d⟩ := x
    have hlt := Memory.wf_head_lt hm
    simp only [Memory.write]
    split
    · refine Memory.read_cons fun c hc => ?_
      rcases List.mem_cons.1 hc with rfl | hc
      · assumption
      · exact lt_trans ‹_› (hlt c hc)
    · split
      · refine Memory.read_cons fun c hc => ?_
        have := hlt c hc
        simp_all
      · simp [Memory.read, show k ≠ a by omega, ih (Memory.wf_tail hm)]

/-- A store leaves every other address as it was (20_memory.md R36). -/
theorem Memory.read_write_ne {m : List Host.Cell} {a q : Nat} {b : Byte} (h : q ≠ a) :
    Memory.read (Memory.write m a b) q = Memory.read m q := by
  induction m with
  | nil => exact Memory.read_cons_ne h
  | cons x rest ih =>
    obtain ⟨k, d⟩ := x
    simp only [Memory.write]
    split
    · exact Memory.read_cons_ne h
    · split
      · rw [Memory.read_cons_ne h]
        rw [Memory.read, if_neg (by omega)]
      · simp only [Memory.read, ih]

/-! ## The same, of a state -/

theorem byteAt_setByte_same {s : State} {a : Word} {b : Byte} (h : Memory.wf s.mem) : (s.setByte a b).byteAt a = b :=
  Memory.read_write_same h

theorem byteAt_setByte_ne {s : State} {a q : Word} {b : Byte} (h : q ≠ a) : (s.setByte a b).byteAt q = s.byteAt q :=
  Memory.read_write_ne fun e => h (BitVec.eq_of_toNat_eq e)

theorem wf_setByte {s : State} {a : Word} {b : Byte} (h : Memory.wf s.mem) : Memory.wf (s.setByte a b).mem :=
  Memory.wf_write h a.isLt

theorem wf_setWord {s : State} {a v : Word} (h : Memory.wf s.mem) : Memory.wf (s.setWord a v).mem :=
  wf_setByte (wf_setByte h)

theorem wf_placeBytes {s : State} {a : Word} {bytes : List Byte} (h : Memory.wf s.mem) :
    Memory.wf (s.placeBytes a bytes).mem := by
  induction bytes generalizing s a with
  | nil => exact h
  | cons b rest ih => exact ih (wf_setByte h)

theorem byteAt_setWord_ne {s : State} {a q v : Word} (h0 : q ≠ a) (h1 : q ≠ a + 1) :
    (s.setWord a v).byteAt q = s.byteAt q := by
  rw [State.setWord, byteAt_setByte_ne h1, byteAt_setByte_ne h0]

theorem word_ne_succ (a : Word) : a ≠ a + 1 := by
  bv_omega

theorem byteAt_setWord_low {s : State} {a v : Word} (h : Memory.wf s.mem) :
    (s.setWord a v).byteAt a = lowByte v := by
  rw [State.setWord, byteAt_setByte_ne (word_ne_succ a), byteAt_setByte_same h]

theorem byteAt_setWord_high {s : State} {a v : Word} (h : Memory.wf s.mem) :
    (s.setWord a v).byteAt (a + 1) = highByte v :=
  byteAt_setByte_same (wf_setByte h)

@[simp] theorem wordOfBytes_low_high (v : Word) : wordOfBytes (lowByte v) (highByte v) = v := by
  unfold wordOfBytes lowByte highByte
  apply BitVec.eq_of_getLsbD_eq
  intro i hi
  simp only [BitVec.getLsbD_append, BitVec.getLsbD_extractLsb']
  by_cases h : i < 8
  · simp [h]
  · simp [h, show i - 8 < 8 by omega, show 8 + (i - 8) = i by omega]

theorem getLsbD_wordOfBytes (l h : Byte) (i : Nat) :
    (wordOfBytes l h).getLsbD i = if i < 8 then l.getLsbD i else h.getLsbD (i - 8) := by
  change (h ++ l : BitVec (8 + 8)).getLsbD i = _
  rw [BitVec.getLsbD_append]

@[simp] theorem lowByte_wordOfBytes (l h : Byte) : lowByte (wordOfBytes l h) = l := by
  apply BitVec.eq_of_getLsbD_eq
  intro i hi
  rw [lowByte, BitVec.getLsbD_extractLsb', getLsbD_wordOfBytes]
  simp [hi]

@[simp] theorem highByte_wordOfBytes (l h : Byte) : highByte (wordOfBytes l h) = h := by
  apply BitVec.eq_of_getLsbD_eq
  intro i hi
  rw [highByte, BitVec.getLsbD_extractLsb', getLsbD_wordOfBytes]
  simp [hi]

/-- A stored word reads back (20_memory.md R37). -/
theorem wordAt_setWord_same {s : State} {a v : Word} (h : Memory.wf s.mem) : (s.setWord a v).wordAt a = v := by
  rw [State.wordAt, byteAt_setWord_low h, byteAt_setWord_high h, wordOfBytes_low_high]

theorem reset_mem_wf : Memory.wf State.reset.mem := Memory.wf_nil

end Sys2Proof.Machine
end

