-- ==== Sys2Proof/Laws/Ops.lean ====
section
/-!
SUPPORT. For each shared operation one lemma that says when it answers and what it then answers, so that a proof about
an instruction takes its operations apart without unfolding them.
-/

namespace Sys2Proof.Machine

open Sys2Proof

/-! ## Computations that may fault -/

@[simp] theorem ok_bind {α β : Type} (a : α) (f : α → Except Fault β) : (Except.ok a >>= f) = f a := rfl
@[simp] theorem error_bind {α β : Type} (e : Fault) (f : α → Except Fault β) :
    (Except.error e >>= f) = .error e := rfl
@[simp] theorem pure_eq_ok {α : Type} (a : α) : (pure a : Except Fault α) = .ok a := rfl

theorem bind_eq_ok {α β : Type} {x : Except Fault α} {f : α → Except Fault β} {b : β} :
    (x >>= f) = .ok b ↔ ∃ a, x = .ok a ∧ f a = .ok b := by
  cases x <;> simp

theorem bind_eq_error {α β : Type} {x : Except Fault α} {f : α → Except Fault β} {e : Fault} :
    (x >>= f) = .error e ↔ x = .error e ∨ ∃ a, x = .ok a ∧ f a = .error e := by
  cases x <;> simp

@[simp] theorem finish_eq_next {x : Except Fault State} {t : State} : finish x = .next t ↔ x = .ok t := by
  cases x <;> simp [finish]

@[simp] theorem finish_eq_fault {x : Except Fault State} {f : Fault} : finish x = .fault f ↔ x = .error f := by
  cases x <;> simp [finish]

@[simp] theorem finish_ne_refused {x : Except Fault State} {r : Refusal} : finish x ≠ .refused r := by
  cases x <;> simp [finish]

/-! ## Reads -/

theorem readReg_eq_ok {site : Site} {r : Reg} {s : State} {v : Word} :
    readReg site r s = .ok v ↔ s.isWritten r = true ∧ v = s.reg r := by
  unfold readReg
  by_cases h : s.isWritten r = true <;> simp [h, eq_comm]

theorem readReg_eq_error {site : Site} {r : Reg} {s : State} {f : Fault} :
    readReg site r s = .error f ↔ s.isWritten r = false ∧ f = .uninitializedRegister site r := by
  unfold readReg
  by_cases h : s.isWritten r = true <;> simp [h, eq_comm]

theorem loadMem_eq_ok {site : Site} {w : Width} {a v : Word} {s : State} :
    loadMem site w a s = .ok v ↔
      (w = .byte ∧ v = zext16 (s.byteAt a)) ∨ (w = .word ∧ a ≠ 0xFFFF ∧ v = s.wordAt a) := by
  cases w
  · simp only [loadMem, topAddress]
    grind
  · simp [loadMem, eq_comm]

theorem loadMem_eq_error {site : Site} {w : Width} {a : Word} {s : State} {f : Fault} :
    loadMem site w a s = .error f ↔ w = .word ∧ a = 0xFFFF ∧ f = .wordAccessAtTop site a := by
  cases w
  · simp only [loadMem, topAddress]
    grind
  · simp [loadMem]

theorem fetchWord_eq_ok {origin : Word} {s t : State} {w : Word} :
    fetchWord origin s = .ok (w, t) ↔ (s.reg 0).getLsbD 0 = false ∧ w = s.wordAt (s.reg 0) ∧ t = s.advancePc := by
  simp only [fetchWord, pc_eq]
  grind

theorem fetchWord_eq_error {origin : Word} {s : State} {f : Fault} :
    fetchWord origin s = .error f ↔ (s.reg 0).getLsbD 0 = true ∧ f = .misalignedFetch origin := by
  simp only [fetchWord, pc_eq]
  grind

/-! ## Stores -/

theorem storeMem_eq_ok {site : Site} {w : Width} {a v : Word} {s t : State} :
    storeMem site w a v s = .ok t ↔
      (w = .byte ∧ t = s.setByte a (lowByte v)) ∨ (w = .word ∧ a ≠ 0xFFFF ∧ t = s.setWord a v) := by
  cases w
  · simp only [storeMem, topAddress]
    grind
  · simp [storeMem, eq_comm]

theorem storeMem_eq_error {site : Site} {w : Width} {a v : Word} {s : State} {f : Fault} :
    storeMem site w a v s = .error f ↔ w = .word ∧ a = 0xFFFF ∧ f = .wordAccessAtTop site a := by
  cases w
  · simp only [storeMem, topAddress]
    grind
  · simp [storeMem]

/-- Everything a memory store can do: registers, marks and draws stay, and so does every byte outside the stored
ones. -/
theorem storeMem_frame {site : Site} {w : Width} {a v : Word} {s t : State} (h : storeMem site w a v s = .ok t) :
    (∀ q, t.reg q = s.reg q) ∧ (∀ q, t.isWritten q = s.isWritten q) ∧ t.draws = s.draws ∧
      (Memory.wf s.mem → Memory.wf t.mem) ∧
      ∀ b : Word, b ≠ a → (w = .word → b ≠ a + 1) → t.byteAt b = s.byteAt b := by
  rcases storeMem_eq_ok.1 h with ⟨rfl, rfl⟩ | ⟨rfl, -, rfl⟩
  · exact ⟨fun _ => rfl, fun _ => rfl, rfl, wf_setByte, fun b hb _ => byteAt_setByte_ne hb⟩
  · exact ⟨fun _ => rfl, fun _ => rfl, rfl, wf_setWord, fun b hb h1 => byteAt_setWord_ne hb (h1 rfl)⟩

theorem pushWord_eq_ok {site : Site} {v : Word} {s t : State} :
    pushWord site v s = .ok t ↔
      s.reg 1 - 2 ≠ 0xFFFF ∧ t = (s.setReg 1 (s.reg 1 - 2)).setWord (s.reg 1 - 2) v := by
  simp only [pushWord, storeMem_eq_ok, sp_eq]
  simp

theorem pushWord_eq_error {site : Site} {v : Word} {s : State} {f : Fault} :
    pushWord site v s = .error f ↔ s.reg 1 - 2 = 0xFFFF ∧ f = .wordAccessAtTop site (s.reg 1 - 2) := by
  simp only [pushWord, storeMem_eq_error, sp_eq]
  simp

theorem pushByte_eq (site : Site) (v : Word) (s : State) :
    pushByte site v s = pushWord site (wordOfBytes (lowByte v) (Config.draw8 s.draws)) (draw8 s).2 := rfl

/-- Everything a push can do: SP moves, the two bytes of the stack word change, and nothing else does. -/
theorem pushWord_frame {site : Site} {v : Word} {s t : State} (h : pushWord site v s = .ok t) :
    (∀ q, t.reg q = if q = 1 then s.reg 1 - 2 else s.reg q) ∧
      (∀ q, t.isWritten q = if q = 1 then true else s.isWritten q) ∧ t.draws = s.draws ∧
      (Memory.wf s.mem → Memory.wf t.mem) ∧
      ∀ b : Word, b ≠ s.reg 1 - 2 → b ≠ s.reg 1 - 2 + 1 → t.byteAt b = s.byteAt b := by
  obtain ⟨-, rfl⟩ := pushWord_eq_ok.1 h
  refine ⟨fun q => by simp, fun q => by simp, rfl, fun hm => wf_setWord (by simpa using hm), fun b h0 h1 => ?_⟩
  rw [byteAt_setWord_ne h0 h1, byteAt_setReg]

end Sys2Proof.Machine
end

