-- ==== Sys2Proof/Laws/Operands.lean ====
section
/-!
SUPPORT. The resolver and the Locations, said once: what resolving an operand can change and where it can point
(40_operand_resolver.md R72-R95), what reading and writing a Location can do (R86-R89), and what the operand steps of
the two templates leave.
-/

namespace Sys2Proof.Machine

open Sys2Proof

/-- What resolving an operand may change of the state: the memory and the draws stay, no mark is cleared, and a register
other than R0 and the operand's own keeps value and mark. -/
structure Resolved (reg : Reg) (s t : State) : Prop where
  mem : t.mem = s.mem
  draws : t.draws = s.draws
  marks : ∀ q, s.isWritten q = true → t.isWritten q = true
  other : ∀ q, q ≠ 0 → q ≠ reg → t.reg q = s.reg q ∧ t.isWritten q = s.isWritten q

theorem Resolved.refl (reg : Reg) (s : State) : Resolved reg s s :=
  ⟨rfl, rfl, fun _ h => h, fun _ _ _ => ⟨rfl, rfl⟩⟩

theorem Resolved.advance (reg : Reg) (s : State) : Resolved reg s s.advancePc :=
  ⟨rfl, rfl, fun q h => by simp [h], fun q h _ => by simp [h]⟩

theorem Resolved.bump (reg : Reg) (s : State) (v : Word) : Resolved reg s (s.setReg reg v) :=
  ⟨rfl, rfl, fun q h => by simp [h], fun q _ h => by simp [h]⟩

theorem Resolved.byteAt {reg : Reg} {s t : State} (h : Resolved reg s t) (a : Word) : t.byteAt a = s.byteAt a := by
  simp only [State.byteAt, h.mem]

/-! ## The modes without substitution -/

theorem resolveMode_register {site : Site} {reg : Reg} {s : State} :
    resolveMode site .register reg s = .ok (.reg reg, s) := rfl

theorem resolveMode_indexed_eq_ok {site : Site} {reg : Reg} {s t : State} {l : Location} :
    resolveMode site .indexed reg s = .ok (l, t) ↔
      (s.reg 0).getLsbD 0 = false ∧ s.advancePc.isWritten reg = true ∧
        l = .mem (s.advancePc.reg reg + s.wordAt (s.reg 0)) ∧ t = s.advancePc := by
  simp only [resolveMode, bind_eq_ok, Prod.exists, fetchWord_eq_ok, readReg_eq_ok, pure_eq_ok]
  constructor
  · rintro ⟨e, s1, ⟨h, rfl, rfl⟩, v, ⟨hw, rfl⟩, he⟩
    cases he
    exact ⟨h, hw, rfl, rfl⟩
  · rintro ⟨h, hw, rfl, rfl⟩
    exact ⟨_, _, ⟨h, rfl, rfl⟩, _, ⟨hw, rfl⟩, rfl⟩

theorem resolveMode_indirect_eq_ok {site : Site} {reg : Reg} {s t : State} {l : Location} :
    resolveMode site .indirect reg s = .ok (l, t) ↔ s.isWritten reg = true ∧ l = .mem (s.reg reg) ∧ t = s := by
  simp only [resolveMode, bind_eq_ok, readReg_eq_ok, pure_eq_ok]
  constructor
  · rintro ⟨v, ⟨hw, rfl⟩, he⟩
    cases he
    exact ⟨hw, rfl, rfl⟩
  · rintro ⟨hw, rfl, rfl⟩
    exact ⟨_, ⟨hw, rfl⟩, rfl⟩

theorem resolveMode_postInc_eq_ok {site : Site} {reg : Reg} {s t : State} {l : Location} :
    resolveMode site .postInc reg s = .ok (l, t) ↔
      s.isWritten reg = true ∧ l = .mem (s.reg reg) ∧ t = s.setReg reg (s.reg reg + postIncrement reg) := by
  simp only [resolveMode, bind_eq_ok, readReg_eq_ok, pure_eq_ok]
  constructor
  · rintro ⟨v, ⟨hw, rfl⟩, he⟩
    cases he
    exact ⟨hw, rfl, rfl⟩
  · rintro ⟨hw, rfl, rfl⟩
    exact ⟨_, ⟨hw, rfl⟩, rfl⟩

theorem resolveMode_frame {site : Site} {mode : Mode} {reg : Reg} {s t : State} {l : Location}
    (h : resolveMode site mode reg s = .ok (l, t)) : Resolved reg s t := by
  cases mode with
  | register => cases h; exact .refl ..
  | indexed => obtain ⟨-, -, -, rfl⟩ := resolveMode_indexed_eq_ok.1 h; exact .advance ..
  | indirect => obtain ⟨-, -, rfl⟩ := resolveMode_indirect_eq_ok.1 h; exact .refl ..
  | postInc => obtain ⟨-, -, rfl⟩ := resolveMode_postInc_eq_ok.1 h; exact .bump ..

/-- What no resolution changes: R2 and R3 as a source, and every register but R0 and the operand's own. -/
theorem resolveSrc_frame {site : Site} {mode : Mode} {reg : Reg} {s t : State} {l : Location}
    (h : resolveSrc site mode reg s = .ok (l, t)) :
    Resolved reg s t ∧ ((reg = 2 ∨ reg = 3) → t.reg 2 = s.reg 2 ∧ t.reg 3 = s.reg 3) := by
  unfold resolveSrc at h
  split at h
  · cases h; exact ⟨.refl .., fun _ => ⟨rfl, rfl⟩⟩
  · rename_i hc
    split at h
    · obtain ⟨⟨e, s1⟩, hf, he⟩ := bind_eq_ok.1 h
      obtain ⟨-, -, rfl⟩ := fetchWord_eq_ok.1 hf
      cases he
      exact ⟨.advance .., fun _ => by simp⟩
    · rename_i hn
      refine ⟨resolveMode_frame h, ?_⟩
      rintro (rfl | rfl)
      · cases mode with
        | register => cases h; exact ⟨rfl, rfl⟩
        | indexed => simp at hn
        | indirect => exact absurd hc (by decide)
        | postInc => exact absurd hc (by decide)
      · exact absurd hc (by cases mode <;> decide)

theorem resolveDst_frame {site : Site} {ad : DstMode} {reg : Reg} {s t : State} {l : Location}
    (h : resolveDst site (dstMode ad) reg s = .ok (l, t)) :
    Resolved reg s t ∧ (∀ q, q ≠ 0 → t.reg q = s.reg q ∧ t.isWritten q = s.isWritten q) ∧
      ((ad = .register ∧ l = .reg reg) ∨ (ad = .indexed ∧ ∃ a, l = .mem a)) := by
  cases ad with
  | register => cases h; exact ⟨.refl .., fun _ _ => ⟨rfl, rfl⟩, .inl ⟨rfl, rfl⟩⟩
  | indexed =>
    obtain ⟨-, -, rfl, rfl⟩ := resolveMode_indexed_eq_ok.1 h
    exact ⟨.advance .., fun q hq => by simp [hq], .inr ⟨rfl, _, rfl⟩⟩

/-- The resolver never raises the addressing-mode fault for a source, nor for an Ad field (30_encoding.md R63). -/
theorem resolve_error_cases {site : Site} {mode : Mode} {reg : Reg} {s : State} {f : Fault}
    (h : resolveMode site mode reg s = .error f) :
    f = .misalignedFetch site.pc ∨ f = .uninitializedRegister site reg := by
  cases mode with
  | register => cases h
  | indexed =>
    rcases bind_eq_error.1 h with h | ⟨⟨e, s1⟩, -, h⟩
    · exact .inl (fetchWord_eq_error.1 h).2
    · rcases bind_eq_error.1 h with h | ⟨_, -, h⟩
      · exact .inr (readReg_eq_error.1 h).2
      · cases h
  | indirect =>
    rcases bind_eq_error.1 h with h | ⟨_, -, h⟩
    · exact .inr (readReg_eq_error.1 h).2
    · cases h
  | postInc =>
    rcases bind_eq_error.1 h with h | ⟨_, -, h⟩
    · exact .inr (readReg_eq_error.1 h).2
    · cases h

/-! ## Locations -/

theorem writeLoc_reg (site : Site) (r : Reg) (w : Width) (v : Word) (s : State) :
    writeLoc site (.reg r) w v s = .ok (s.setReg r (narrow w v)) := rfl

/-- Everything a write to a Location can do. -/
theorem writeLoc_frame {site : Site} {l : Location} {w : Width} {v : Word} {s t : State}
    (h : writeLoc site l w v s = .ok t) :
    (∀ q, l ≠ .reg q → t.reg q = s.reg q ∧ t.isWritten q = s.isWritten q) ∧
      (∀ q, l = .reg q → t.reg q = narrow w v ∧ t.isWritten q = true) ∧ t.draws = s.draws ∧
      (Memory.wf s.mem → Memory.wf t.mem) ∧
      ∀ b : Word, (∀ a, l = .mem a → b ≠ a ∧ (w = .word → b ≠ a + 1)) → t.byteAt b = s.byteAt b := by
  cases l with
  | reg r =>
    cases h
    refine ⟨fun q hq => ?_, fun q hq => ?_, rfl, id, fun _ _ => rfl⟩
    · have : q ≠ r := fun e => hq (by rw [e])
      simp [this]
    · cases hq; simp
  | mem a =>
    obtain ⟨h1, h2, h3, h4, h5⟩ := storeMem_frame h
    exact ⟨fun q _ => ⟨h1 q, h2 q⟩, fun q hq => by simp at hq, h3, h4,
      fun b hb => h5 b (hb a rfl).1 (hb a rfl).2⟩
  | const _ => cases h

theorem marks_writeLoc {site : Site} {l : Location} {w : Width} {v : Word} {s t : State}
    (h : writeLoc site l w v s = .ok t) (q : Reg) (hq : s.isWritten q = true) : t.isWritten q = true := by
  obtain ⟨h1, h2, -⟩ := writeLoc_frame h
  by_cases e : l = .reg q
  · exact (h2 q e).2
  · exact (h1 q e).2.trans hq

/-! ## The two templates -/

theorem binaryOperands_eq_ok {site : Site} {sreg : Reg} {as : Mode} {bw : Width} {ad : DstMode} {dreg : Reg}
    {s : State} {o : Operand} :
    binaryOperands site sreg as bw ad dreg s = .ok o ↔
      ∃ sl s1, resolveSrc site as sreg s.advancePc = .ok (sl, s1) ∧ readLoc site sl bw s1 = .ok o.value ∧
        resolveDst site (dstMode ad) dreg s1 = .ok (o.loc, o.state) := by
  simp only [binaryOperands, resolve, bind_eq_ok, Prod.exists, pure_eq_ok]
  constructor
  · rintro ⟨sl, s1, h1, v, h2, dl, s2, h3, h4⟩
    cases h4
    exact ⟨sl, s1, h1, h2, h3⟩
  · rintro ⟨sl, s1, h1, h2, h3⟩
    exact ⟨sl, s1, h1, _, h2, _, _, h3, rfl⟩

theorem unaryOperand_eq_ok {site : Site} {as : Mode} {bw : Width} {reg : Reg} {s : State} {o : Operand} :
    unaryOperand site as bw reg s = .ok o ↔
      resolveSrc site as reg s.advancePc = .ok (o.loc, o.state) ∧ readLoc site o.loc bw o.state = .ok o.value := by
  simp only [unaryOperand, resolve, bind_eq_ok, Prod.exists, pure_eq_ok]
  constructor
  · rintro ⟨l, s1, h1, v, h2, h3⟩
    cases h3
    exact ⟨h1, h2⟩
  · rintro ⟨h1, h2⟩
    exact ⟨_, _, h1, _, h2, rfl⟩

end Sys2Proof.Machine
end

