-- ==== Sys2Proof/Laws/Handlers.lean ====
section
/-!
SUPPORT. When the handlers shared by several instructions complete, and what they then answer (42_binary.md R107,
43_unary.md R118, R120).
-/

namespace Sys2Proof.Machine

open Sys2Proof

theorem aluHandler_eq_ok {site : Site} {bw : Width} {o : Operand} {alu : Word → AluOut} {t : State} :
    aluHandler site bw o alu = .ok t ↔
      ∃ dv s, readLoc site o.loc bw o.state = .ok dv ∧ writeLoc site o.loc bw (alu dv).result o.state = .ok s ∧
        t = s.setAluFlags (alu dv) := by
  simp only [aluHandler, bind_eq_ok, pure_eq_ok]
  constructor
  · rintro ⟨dv, h1, s, h2, h3⟩
    cases h3
    exact ⟨dv, s, h1, h2, rfl⟩
  · rintro ⟨dv, s, h1, h2, rfl⟩
    exact ⟨dv, h1, s, h2, rfl⟩

theorem shiftHandler_eq_ok {site : Site} {bw : Width} {o : Operand} {r : Word} {t : State} :
    shiftHandler site bw o r = .ok t ↔
      ∃ s, writeLoc site o.loc bw r o.state = .ok s ∧
        t = s.setFlags (o.value.getLsbD 0) (r == 0) (negative bw r) (some false) := by
  simp only [shiftHandler, bind_eq_ok, pure_eq_ok]
  constructor
  · rintro ⟨s, h1, h2⟩
    cases h2
    exact ⟨s, h1, rfl⟩
  · rintro ⟨s, h1, rfl⟩
    exact ⟨s, h1, rfl⟩

/-- What an ALU instruction that writes back leaves: only its Location and R2 change after its operand steps. -/
theorem aluHandler_frame {site : Site} {bw : Width} {o : Operand} {alu : Word → AluOut} {t : State}
    (h : aluHandler site bw o alu = .ok t) :
    (∀ q, q ≠ 2 → o.loc ≠ .reg q → t.reg q = o.state.reg q ∧ t.isWritten q = o.state.isWritten q) ∧
      t.draws = o.state.draws ∧ (Memory.wf o.state.mem → Memory.wf t.mem) ∧
      ∀ b : Word, (∀ a, o.loc = .mem a → b ≠ a ∧ (bw = .word → b ≠ a + 1)) → t.byteAt b = o.state.byteAt b := by
  obtain ⟨dv, s, -, hw, rfl⟩ := aluHandler_eq_ok.1 h
  obtain ⟨h1, -, h3, h4, h5⟩ := writeLoc_frame hw
  exact ⟨fun q h2 hq => by simpa [h2] using h1 q hq, h3, h4, fun b hb => by simpa using h5 b hb⟩

end Sys2Proof.Machine
end

