-- ==== Sys2Proof/Laws/PerInstr.lean ====
section
/-!
SUPPORT. The family TableRow, one lemma per constructor of `Instr`: the word an instruction encodes to has the fixed
bits of its row of spec/opcode_table.json (30_encoding.md R71).
-/

namespace Sys2Proof.Laws.TableRow

open Sys2Proof

/-- The mask column of the row. -/
def mask : Instr → Word
  | .mov _ _ _ _ _ | .add _ _ _ _ _ | .addc _ _ _ _ _ | .subc _ _ _ _ _ | .sub _ _ _ _ _ | .cmp _ _ _ _ _ => 0xF000
  | .rrc _ _ _ | .swpb _ _ _ | .rra _ _ _ | .sxt _ _ _ | .push _ _ _ | .call _ _ _ => 0xFF80
  | .unclassified0000 _ => 0xF000
  | .unclassified1400 _ => 0xFC00
  | .unclassified1800 _ => 0xF800
  | .unclassified2000 _ => 0xE000
  | .unaryUop6 _ | .unaryUop7 _ => 0xFF80
  | .swpbByte _ _ | .sxtByte _ _ | .callByte _ _ => 0xFFC0
  | .binaryOpAB _ => 0xE000
  | .binaryOpCF _ => 0xC000

/-- The match column of the row. -/
def pattern : Instr → Word
  | .mov _ _ _ _ _ => 0x4000
  | .add _ _ _ _ _ => 0x5000
  | .addc _ _ _ _ _ => 0x6000
  | .subc _ _ _ _ _ => 0x7000
  | .sub _ _ _ _ _ => 0x8000
  | .cmp _ _ _ _ _ => 0x9000
  | .rrc _ _ _ => 0x1000
  | .swpb _ _ _ => 0x1080
  | .rra _ _ _ => 0x1100
  | .sxt _ _ _ => 0x1180
  | .push _ _ _ => 0x1200
  | .call _ _ _ => 0x1280
  | .unclassified0000 _ => 0x0000
  | .unclassified1400 _ => 0x1400
  | .unclassified1800 _ => 0x1800
  | .unclassified2000 _ => 0x2000
  | .unaryUop6 _ => 0x1300
  | .unaryUop7 _ => 0x1380
  | .swpbByte _ _ => 0x10C0
  | .sxtByte _ _ => 0x11C0
  | .callByte _ _ => 0x12C0
  | .binaryOpAB _ => 0xA000
  | .binaryOpCF _ => 0xC000

/-- The word an instruction encodes to lies in its row of the table. -/
def Statement (i : Instr) : Prop := encodeWord i &&& mask i = pattern i

/-- The fixed high bits of a word whose low bits are `low`. -/
theorem append_and_mask {n m : Nat} (high : BitVec n) (low : BitVec m) :
    (high ++ low) &&& (BitVec.allOnes n ++ (0 : BitVec m)) = high ++ (0 : BitVec m) := by
  apply BitVec.eq_of_getLsbD_eq
  intro i hi
  simp only [BitVec.getLsbD_and, BitVec.getLsbD_append, BitVec.getLsbD_allOnes]
  by_cases h : i < m
  · simp [h]
  · simp [h, show i - m < n by omega]

theorem binaryWord_and_mask (op : BitVec 4) (sreg : Reg) (as : Mode) (bw : Width) (ad : DstMode) (dreg : Reg) :
    binaryWord op sreg as bw ad dreg &&& 0xF000 = op ++ (0 : BitVec 12) := by
  have h := append_and_mask op (sreg.toBits ++ as.toBits ++ bw.toBits ++ ad.toBits ++ dreg.toBits)
  have e : binaryWord op sreg as bw ad dreg =
      op ++ (sreg.toBits ++ as.toBits ++ bw.toBits ++ ad.toBits ++ dreg.toBits) := by
    apply BitVec.eq_of_getLsbD_eq
    intro i hi
    simp only [binaryWord, BitVec.getLsbD_append]
    grind
  rw [e]
  exact h

theorem unaryWord_and_mask (uop : BitVec 3) (bw : Width) (as : Mode) (reg : Reg) :
    unaryWord uop bw as reg &&& 0xFF80 = 0b000100#6 ++ uop ++ (0 : BitVec 7) := by
  have h := append_and_mask (0b000100#6 ++ uop) (bw.toBits ++ as.toBits ++ reg.toBits)
  have e : unaryWord uop bw as reg = 0b000100#6 ++ uop ++ (bw.toBits ++ as.toBits ++ reg.toBits) := by
    apply BitVec.eq_of_getLsbD_eq
    intro i hi
    simp only [unaryWord, BitVec.getLsbD_append]
    grind
  rw [e]
  exact h

theorem unaryWord_byte_and_mask (uop : BitVec 3) (as : Mode) (reg : Reg) :
    unaryWord uop .byte as reg &&& 0xFFC0 = 0b000100#6 ++ uop ++ 1#1 ++ (0 : BitVec 6) := by
  have h := append_and_mask (0b000100#6 ++ uop ++ Width.byte.toBits) (as.toBits ++ reg.toBits)
  have e : unaryWord uop .byte as reg = 0b000100#6 ++ uop ++ Width.byte.toBits ++ (as.toBits ++ reg.toBits) := by
    apply BitVec.eq_of_getLsbD_eq
    intro i hi
    simp only [unaryWord, BitVec.getLsbD_append]
    grind
  rw [e]
  exact h

theorem mov (sreg : Reg) (as : Mode) (bw : Width) (ad : DstMode) (dreg : Reg) : Statement (.mov sreg as bw ad dreg) :=
  binaryWord_and_mask ..
theorem add (sreg : Reg) (as : Mode) (bw : Width) (ad : DstMode) (dreg : Reg) : Statement (.add sreg as bw ad dreg) :=
  binaryWord_and_mask ..
theorem addc (sreg : Reg) (as : Mode) (bw : Width) (ad : DstMode) (dreg : Reg) : Statement (.addc sreg as bw ad dreg) :=
  binaryWord_and_mask ..
theorem subc (sreg : Reg) (as : Mode) (bw : Width) (ad : DstMode) (dreg : Reg) : Statement (.subc sreg as bw ad dreg) :=
  binaryWord_and_mask ..
theorem sub (sreg : Reg) (as : Mode) (bw : Width) (ad : DstMode) (dreg : Reg) : Statement (.sub sreg as bw ad dreg) :=
  binaryWord_and_mask ..
theorem cmp (sreg : Reg) (as : Mode) (bw : Width) (ad : DstMode) (dreg : Reg) : Statement (.cmp sreg as bw ad dreg) :=
  binaryWord_and_mask ..
theorem rrc (bw : Width) (as : Mode) (reg : Reg) : Statement (.rrc bw as reg) := unaryWord_and_mask ..
theorem swpb (bw : Width) (as : Mode) (reg : Reg) : Statement (.swpb bw as reg) := unaryWord_and_mask ..
theorem rra (bw : Width) (as : Mode) (reg : Reg) : Statement (.rra bw as reg) := unaryWord_and_mask ..
theorem sxt (bw : Width) (as : Mode) (reg : Reg) : Statement (.sxt bw as reg) := unaryWord_and_mask ..
theorem push (bw : Width) (as : Mode) (reg : Reg) : Statement (.push bw as reg) := unaryWord_and_mask ..
theorem call (bw : Width) (as : Mode) (reg : Reg) : Statement (.call bw as reg) := unaryWord_and_mask ..
theorem unclassified0000 (bits : BitVec 12) : Statement (.unclassified0000 bits) := append_and_mask ..
theorem unclassified1400 (bits : BitVec 10) : Statement (.unclassified1400 bits) := append_and_mask ..
theorem unclassified1800 (bits : BitVec 11) : Statement (.unclassified1800 bits) := append_and_mask ..
theorem unclassified2000 (bits : BitVec 13) : Statement (.unclassified2000 bits) := append_and_mask ..
theorem unaryUop6 (bits : BitVec 7) : Statement (.unaryUop6 bits) := append_and_mask ..
theorem unaryUop7 (bits : BitVec 7) : Statement (.unaryUop7 bits) := append_and_mask ..
theorem swpbByte (as : Mode) (reg : Reg) : Statement (.swpbByte as reg) := unaryWord_byte_and_mask ..
theorem sxtByte (as : Mode) (reg : Reg) : Statement (.sxtByte as reg) := unaryWord_byte_and_mask ..
theorem callByte (as : Mode) (reg : Reg) : Statement (.callByte as reg) := unaryWord_byte_and_mask ..
theorem binaryOpAB (bits : BitVec 13) : Statement (.binaryOpAB bits) := append_and_mask ..
theorem binaryOpCF (bits : BitVec 14) : Statement (.binaryOpCF bits) := append_and_mask ..

end Sys2Proof.Laws.TableRow
end

