-- ==== Sys2Proof/Tests/Slice0.lean ====
section
/-!
SUPPORT. Tests on one step each, with the spec's own vectors (95_test_vectors.md, named in each comment): the launch
state L0 is construction with CODE_START = 0xC000 and STACK_START = 0x0400, all of R3-R15 unwritten.
-/

namespace Sys2Proof.Tests

open Sys2Proof Sys2Proof.Machine Sys2Proof.Safety

/-! ## Well-formedness: the one check, refused for each instruction that has it (30_encoding.md R62) -/

theorem test_wellFormed_swpb_word : (Instr.swpb .word .register 5).WellFormed := by decide
theorem test_illFormed_swpb_byte : ¬ (Instr.swpb .byte .register 5).WellFormed := by decide
theorem test_illFormed_sxt_byte : ¬ (Instr.sxt .byte .register 5).WellFormed := by decide
theorem test_illFormed_call_byte : ¬ (Instr.call .byte .register 5).WellFormed := by decide

/-! ## Decoding: words written out from the encodings of 30_encoding.md R52, R53 -/

/-- `CMP.B X(R10), Y(R15)`, 0x9A7F (part 6): 1001 1010 01 1 1 1111. -/
theorem test_decode_cmp : decodeWord 0b1001_1010_01_1_1_1111 = .cmp 10 .indexed .byte .indexed 15 := by decide
/-- `MOV X(R4), R5`, 0x4445 (part 6): 0100 0100 01 0 0 0101. -/
theorem test_decode_mov : decodeWord 0b0100_0100_01_0_0_0101 = .mov 4 .indexed .word .register 5 := by decide
/-- `ADD.B R5, R6`, 0x5526: 0101 0101 00 1 0 0110. -/
theorem test_decode_add : decodeWord 0b0101_0101_00_1_0_0110 = .add 5 .register .byte .register 6 := by decide
/-- `ADDC #0, R7`, 0x6307 (P1): 0110 0011 00 0 0 0111. -/
theorem test_decode_addc : decodeWord 0b0110_0011_00_0_0_0111 = .addc 3 .register .word .register 7 := by decide
/-- `SUBC #2, R6`, 0x7386 (R111): 0111 0011 10 0 0 0110. -/
theorem test_decode_subc : decodeWord 0b0111_0011_10_0_0_0110 = .subc 3 .indirect .word .register 6 := by decide
/-- `SUB #8, R6`, 0x82C6 (V-SUB-10): 1000 0010 11 0 0 0110. -/
theorem test_decode_sub : decodeWord 0b1000_0010_11_0_0_0110 = .sub 2 .postInc .word .register 6 := by decide
/-- `RRC @R7+`, 0x1037 (V-RRC-6): 000100 000 0 11 0111. -/
theorem test_decode_rrc : decodeWord 0b000100_000_0_11_0111 = .rrc .word .postInc 7 := by decide
/-- `SWPB R5`, 0x1085 (V-SWPB-1): 000100 001 0 00 0101. -/
theorem test_decode_swpb : decodeWord 0b000100_001_0_00_0101 = .swpb .word .register 5 := by decide
/-- `RRA.B R5`, 0x1145 (V-RRA-4): 000100 010 1 00 0101. -/
theorem test_decode_rra : decodeWord 0b000100_010_1_00_0101 = .rra .byte .register 5 := by decide
/-- `SXT R5`, 0x1185 (V-SXT-1): 000100 011 0 00 0101. -/
theorem test_decode_sxt : decodeWord 0b000100_011_0_00_0101 = .sxt .word .register 5 := by decide
/-- `PUSH.B R5`, 0x1245 (part 6): 000100 100 1 00 0101. -/
theorem test_decode_push : decodeWord 0b000100_100_1_00_0101 = .push .byte .register 5 := by decide
/-- `CALL #N`, 0x12B0 (part 6): 000100 101 0 11 0000. -/
theorem test_decode_call : decodeWord 0b000100_101_0_11_0000 = .call .word .postInc 0 := by decide
/-- The fault rows at the words of V-DEC (30_encoding.md R71). -/
theorem test_decode_0FFF : decodeWord 0x0FFF = .unclassified0000 0xFFF := by decide
theorem test_decode_1400 : decodeWord 0x1400 = .unclassified1400 0 := by decide
theorem test_decode_1FFF : decodeWord 0x1FFF = .unclassified1800 0x7FF := by decide
theorem test_decode_3FFF : decodeWord 0x3FFF = .unclassified2000 0x1FFF := by decide
theorem test_decode_1305 : decodeWord 0x1305 = .unaryUop6 5 := by decide
theorem test_decode_13FF : decodeWord 0x13FF = .unaryUop7 0x7F := by decide
theorem test_decode_10C5 : decodeWord 0x10C5 = .swpbByte .register 5 := by decide
theorem test_decode_11C5 : decodeWord 0x11C5 = .sxtByte .register 5 := by decide
theorem test_decode_12C5 : decodeWord 0x12C5 = .callByte .register 5 := by decide
theorem test_decode_B123 : decodeWord 0xB123 = .binaryOpAB 0x1123 := by decide
theorem test_decode_F000 : decodeWord 0xF000 = .binaryOpCF 0x3000 := by decide
/-- The bytes 45 44 02 00 of V-E2: the extension word is left over. -/
theorem test_decode_bytes :
    (decode [0x45, 0x44, 0x02, 0x00]).toOption = some (.mov 4 .indexed .word .register 5, [0x02, 0x00]) := by decide
theorem test_decode_truncated : (decode [0x45]).toOption = none := by decide
/-- The host's numbering: the second word of a longer row does not disturb the first. -/
theorem test_decodeTableWord : decodeTableWord 16 0x4445 = some (.mov 4 .indexed .word .register 5) := by decide

/-! ## One step from L0 -/

/-- L0 with registers assigned, bytes of memory written, and the words of one instruction at 0xC000. -/
def launch (assigned : List (Reg × Word)) (bytes : List (Word × Byte)) (words : List Word) : State :=
  bytes.foldl (fun s c => s.setByte c.1 c.2)
    ((assignRegs assigned (State.construct 0xC000 0x0400)).placeBytes 0xC000
      (words.flatMap fun w => [lowByte w, highByte w]))

/-- The registers named, after a completed step. -/
def regsAfter (o : Host.Outcome State Fault Refusal) (rs : List Reg) : Option (List Word) :=
  match o with
  | .next s => some (rs.map s.reg)
  | .fault _ => none
  | .refused _ => none

/-- The bytes named, after a completed step. -/
def bytesAfter (o : Host.Outcome State Fault Refusal) (as : List Word) : Option (List Byte) :=
  match o with
  | .next s => some (as.map s.byteAt)
  | .fault _ => none
  | .refused _ => none

/-- The fault a step answers. -/
def faultOf (o : Host.Outcome State Fault Refusal) : Option Fault :=
  match o with
  | .fault f => some f
  | .next _ => none
  | .refused _ => none

/-- V-RES-9, `MOV @R5+, 0(R5)`: the destination base sees the increment. -/
theorem test_mov_base_sees_increment :
    bytesAfter (step (launch [(5, 0x2000)] [(0x2000, 0xCD), (0x2001, 0xAB)] [0x45D5, 0x0000])) [0x2001, 0x2002]
      = some [0xCD, 0xAB] := by decide
/-- V-RES-26, `MOV 2(R4), 4(R6)`: two extension words, the source's first. -/
theorem test_mov_two_extension_words :
    bytesAfter (step (launch [(4, 0x2000), (6, 0x3000)] [(0x2002, 0x34), (0x2003, 0x12)] [0x4456, 0x0002, 0x0004]))
      [0x3004, 0x3005] = some [0x34, 0x12] := by decide
/-- V-ADD-9, `ADD.B R5, R6`: PC, R6 and SR. -/
theorem test_add_byte_carry :
    regsAfter (step (launch [(5, 0x12FF), (6, 0x3401)] [] [0x5526])) [0, 6, 2] = some [0xC002, 0x0000, 0x0003] := by
  decide
/-- V-MOV-6, `ADD R5, SR`: write-back, then flags. -/
theorem test_add_to_sr : regsAfter (step (launch [(5, 0x0F00)] [] [0x5502])) [2] = some [0x0E00] := by decide
/-- V-ADDC-5, `ADDC R5, R6`. -/
theorem test_addc_overflow :
    regsAfter (step (launch [(5, 0x7FFF), (6, 0), (2, 1)] [] [0x6506])) [6, 2] = some [0x8000, 0x0104] := by decide
/-- V-SUBC-4, `SUBC.B R5, R6`. -/
theorem test_subc_byte_borrow :
    regsAfter (step (launch [(5, 1), (6, 1), (2, 0)] [] [0x7526])) [6, 2] = some [0x00FF, 0x0004] := by decide
/-- V-SUB-5, `SUB R5, R6`. -/
theorem test_sub_overflow :
    regsAfter (step (launch [(5, 0xFFFF), (6, 0x7FFF)] [] [0x8506])) [6, 2] = some [0x8000, 0x0104] := by decide
/-- V-CMP-3, `CMP R5, R6`: R6 is kept. -/
theorem test_cmp_keeps_destination :
    regsAfter (step (launch [(5, 1), (6, 0x8000)] [] [0x9506])) [6, 2] = some [0x8000, 0x0101] := by decide
/-- V-RRC-4, `RRC.B R5`. -/
theorem test_rrc_byte :
    regsAfter (step (launch [(5, 0xFF01), (2, 1)] [] [0x1045])) [5, 2] = some [0x0080, 0x0005] := by decide
/-- V-RRC-6, `RRC @R7+`: the old address is written and R7 moves by 1. -/
theorem test_rrc_postInc :
    regsAfter (step (launch [(7, 0x2000)] [(0x2000, 0x03)] [0x1037])) [7, 2] = some [0x2001, 0x0001] := by decide
/-- V-SWPB-2, `SWPB 0(R7)` at an odd address. -/
theorem test_swpb_odd_memory :
    bytesAfter (step (launch [(7, 0x2001)] [(0x2001, 0x12), (0x2002, 0x34)] [0x1097, 0x0000])) [0x2001, 0x2002]
      = some [0x34, 0x12] := by decide
/-- V-RRA-4, `RRA.B R5`. -/
theorem test_rra_byte :
    regsAfter (step (launch [(5, 0x1281)] [] [0x1145])) [5, 2] = some [0x00C0, 0x0005] := by decide
/-- V-SXT-3, `SXT R5`: V is kept. -/
theorem test_sxt_keeps_overflow :
    regsAfter (step (launch [(5, 0xAB7F), (2, 0x0100)] [] [0x1185])) [5, 2] = some [0x007F, 0x0101] := by decide
/-- V-PUSH-5, `PUSH @SP+`. -/
theorem test_push_sp_postInc :
    bytesAfter (step (launch [] [(0x0400, 0xCD), (0x0401, 0xAB)] [0x1231])) [0x03FF, 0x0400]
      = some [0xCD, 0xAB] := by decide
/-- V-PUSH-2, `PUSH.B R5`: SP still moves by 2; the high byte is free, so no value of it is expected. -/
theorem test_push_byte_moves_sp :
    regsAfter (step (launch [(5, 0x1234)] [] [0x1245])) [0, 1] = some [0xC002, 0x03FE] := by decide
/-- V-CALL-3, `CALL 2(R4)`. -/
theorem test_call_indexed :
    regsAfter (step (launch [(4, 0x2000)] [(0x2002, 0x00), (0x2003, 0xC2)] [0x1294, 0x0002])) [0, 1]
      = some [0xC200, 0x03FE] := by decide
/-- V-CALL-2, `CALL #0xC100`: the return address is past the extension word. -/
theorem test_call_return_address :
    bytesAfter (step (launch [] [] [0x12B0, 0xC100])) [0x03FE, 0x03FF] = some [0x04, 0xC0] := by decide

/-! ## Faults (95_test_vectors.md part 6) -/

/-- V-F-1, `ADD R7, R6`. -/
theorem test_fault_unwritten :
    faultOf (step (launch [(6, 0)] [] [0x5706])) = some (.uninitializedRegister ⟨0xC000, 0x5706⟩ 7) := by decide
/-- V-F-11, `ADD @R4, R7`: the source read faults before the destination read. -/
theorem test_fault_order :
    faultOf (step (launch [(4, 0xFFFF)] [] [0x5487])) = some (.wordAccessAtTop ⟨0xC000, 0x5487⟩ 0xFFFF) := by decide
/-- V-F-6, `SWPB #-1`. -/
theorem test_fault_constant :
    faultOf (step (launch [] [] [0x10B3])) = some (.constantDestination ⟨0xC000, 0x10B3⟩) := by decide
/-- V-F-13, `PUSH R5` with SP = 1. -/
theorem test_fault_stack_top :
    faultOf (step (launch [(5, 1), (1, 1)] [] [0x1205])) = some (.wordAccessAtTop ⟨0xC000, 0x1205⟩ 0xFFFF) := by
  decide
/-- V-F-14: an odd PC. -/
theorem test_fault_odd_pc :
    faultOf (step (launch [(0, 0xC001)] [] [0x4506])) = some (.misalignedFetch 0xC001) := by decide
/-- V-DEC-11C5, SXT.B. -/
theorem test_fault_byte_form :
    faultOf (step (launch [] [] [0x11C5])) = some (.undefinedByteForm ⟨0xC000, 0x11C5⟩) := by decide
/-- From reset, with nothing loaded, the word 0x0000 at CODE_START faults (log entry 8). -/
theorem test_fault_empty_reset :
    faultOf (step State.reset) = some (.unimplementedOpcode ⟨0xC000, 0x0000⟩) := by decide

/-! ## The host's placing of a first instruction -/

theorem test_withFetchWord_runs :
    regsAfter (step (State.reset.withFetchWord 16 0x4285)) [0, 5] = some [0xC002, 0x0004] := by decide

/-! ## Witnesses: for each statement with hypotheses, a state and operands that meet all of them together, and one at a
boundary for each clause. They show that the hypotheses can be met; they are no statements about the machine. -/

/-- Whether a step completed. -/
def isNext (o : Host.Outcome State Fault Refusal) : Bool :=
  match o with
  | .next _ => true
  | .fault _ => false
  | .refused _ => false

theorem completes_of_isNext {o : Host.Outcome State Fault Refusal} (h : isNext o = true) : ∃ t, o = .next t := by
  cases o with
  | next t => exact ⟨t, rfl⟩
  | fault f => cases h
  | refused r => cases h

theorem fault_of_faultOf {o : Host.Outcome State Fault Refusal} {f : Fault} (h : faultOf o = some f) : o = .fault f := by
  cases o <;> simp_all [faultOf]

/-- `BaseWritten`, decided. -/
def baseWrittenB (s : State) (base : Option Reg) : Bool :=
  match base with
  | some r => s.isWritten r
  | none => true

theorem baseWritten_of {s : State} {base : Option Reg} (h : baseWrittenB s base = true) : BaseWritten s base := by
  intro r hr
  cases hr
  exact h

/-- `Readable`, decided. -/
def readableB (s : State) (loc : Location) (w : Width) : Bool :=
  match loc with
  | .reg r => s.isWritten r
  | .mem a => w == .byte || a != 0xFFFF
  | .const _ => true

theorem readable_of {s : State} {loc : Location} {w : Width} (h : readableB s loc w = true) : Readable s loc w := by
  cases loc with
  | reg r => exact h
  | mem a =>
    rintro rfl rfl
    simp [readableB] at h
  | const v => trivial

/-- `Writable`, decided. -/
def writableB (loc : Location) (w : Width) : Bool :=
  match loc with
  | .reg _ => true
  | .mem a => w == .byte || a != 0xFFFF
  | .const _ => false

theorem writable_of {loc : Location} {w : Width} (h : writableB loc w = true) : Writable loc w := by
  cases loc with
  | reg r => trivial
  | mem a =>
    rintro rfl rfl
    exact absurd h (by decide)
  | const v => cases h

/-- `SourceReady`, decided. -/
def sourceReadyB (as : Mode) (bw : Width) (reg : Reg) (s : State) : Bool :=
  !s.pc.getLsbD 0 && baseWrittenB (s.setReg 0 (s.pc + 2)) (srcBase as reg) &&
    readableB (afterSrc (s.setReg 0 (s.pc + 2)) as reg) (srcLocation (s.setReg 0 (s.pc + 2)) as reg) bw

theorem sourceReady_of {as : Mode} {bw : Width} {reg : Reg} {s : State} (h : sourceReadyB as bw reg s = true) :
    SourceReady as bw reg s := by
  simp only [sourceReadyB, Bool.and_eq_true, Bool.not_eq_true'] at h
  exact ⟨h.1.1, baseWritten_of h.1.2, readable_of h.2⟩

/-- `BinaryReady`, decided. -/
def binaryReadyB (sreg : Reg) (as : Mode) (bw : Width) (ad : DstMode) (dreg : Reg) (s : State) : Bool :=
  sourceReadyB as bw sreg s && baseWrittenB (binaryTable sreg as bw ad dreg s).state (dstBase ad dreg)

theorem binaryReady_of {sreg dreg : Reg} {as : Mode} {bw : Width} {ad : DstMode} {s : State}
    (h : binaryReadyB sreg as bw ad dreg s = true) : BinaryReady sreg as bw ad dreg s := by
  simp only [binaryReadyB, Bool.and_eq_true] at h
  exact ⟨sourceReady_of h.1, baseWritten_of h.2⟩

theorem wf_construct (c k : Word) : Memory.wf (State.construct c k).mem := by
  simp [State.construct, Memory.wf]

/-! ### Encoding and the step -/

/-- DecodeInvertsEncode, at a word-only instruction. -/
theorem witness_wellFormed : (Instr.call .word .postInc 0).WellFormed := by decide
/-- ReservedRangesFaultAndNoOthers: the words at each end of each range and those just outside, and for each clause an even
PC with such a word. -/
theorem witness_unimplemented_words :
    ∀ w ∈ ([0x0000, 0x0FFF, 0x1300, 0x13FF, 0x10C0, 0x10FF, 0x1400, 0x1FFF, 0x2000, 0x3FFF, 0xA000, 0xFFFF] : List Word),
      UnimplementedWord w ∧ ¬ ByteFormWord w := by
  simp [UnimplementedWord, ByteFormWord]
theorem witness_byteForm_words :
    ∀ w ∈ ([0x11C0, 0x11FF, 0x12C0, 0x12FF] : List Word), ByteFormWord w ∧ ¬ UnimplementedWord w := by
  simp [UnimplementedWord, ByteFormWord]
theorem witness_other_words :
    ∀ w ∈ ([0x1000, 0x10BF, 0x1100, 0x11BF, 0x1200, 0x12BF, 0x4000, 0x9FFF] : List Word),
      ¬ UnimplementedWord w ∧ ¬ ByteFormWord w := by
  simp [UnimplementedWord, ByteFormWord]
theorem witness_unimplemented : Aligned (launch [] [] [0xA000]) ∧
    UnimplementedWord ((launch [] [] [0xA000]).wordAt (launch [] [] [0xA000]).pc) := by
  have h : (launch [] [] [0xA000]).wordAt (launch [] [] [0xA000]).pc = 0xA000 := by decide
  exact ⟨by decide, by rw [h]; simp [UnimplementedWord]⟩
theorem witness_byteForm : Aligned (launch [] [] [0x12FF]) ∧
    ByteFormWord ((launch [] [] [0x12FF]).wordAt (launch [] [] [0x12FF]).pc) := by
  have h : (launch [] [] [0x12FF]).wordAt (launch [] [] [0x12FF]).pc = 0x12FF := by decide
  exact ⟨by decide, by rw [h]; simp [ByteFormWord]⟩
theorem witness_other : Aligned (launch [] [] [0x9FFF]) ∧
    (launch [] [] [0x9FFF]).wordAt (launch [] [] [0x9FFF]).pc = 0x9FFF := by decide
/-- StepRunsTheDecodedInstruction. -/
theorem witness_stepRuns :
    let s := launch [(5, 1)] [] [0x4506]
    Aligned s ∧ decode [s.byteAt s.pc, s.byteAt (s.pc + 1)] = .ok (.mov 5 .register .word .register 6, []) :=
  ⟨by decide, rfl⟩
/-- OddPcFaults, at the top address. -/
theorem witness_oddPc : (launch [(0, 0xFFFF)] [] []).pc.getLsbD 0 = true := by decide
/-- CompletedInstructionMovesPcByItsLength, across the top of memory. -/
theorem witness_movesPc : ∃ t, exec (.mov 3 .register .word .register 5) (launch [(0, 0xFFFE)] [] []) = .next t ∧
    writesPc (.mov 3 .register .word .register 5) = false :=
  (completes_of_isNext (by decide)).imp fun _ h => ⟨h, by decide⟩
/-- FetchSeesTheStoredWord. -/
theorem witness_fetchSees : Memory.wf (State.construct 0xC000 0x0400).mem ∧ Aligned (State.construct 0xC000 0x0400) ∧
    (Instr.push .byte .register 5).WellFormed := ⟨wf_construct .., by decide, by decide⟩

/-! ### Written marks -/

/-- UnwrittenSourceRegisterFaults: a value read, a base read. -/
theorem witness_unwritten_source_value :
    let s := launch [] [] []
    Instr.add 7 .register .word .register 6 ∈ [Instr.mov 7 .register .word .register 6,
      .add 7 .register .word .register 6, .addc 7 .register .word .register 6, .subc 7 .register .word .register 6,
      .sub 7 .register .word .register 6, .cmp 7 .register .word .register 6, .rrc .word .register 7,
      .swpb .word .register 7, .rra .word .register 7, .sxt .word .register 7, .push .word .register 7,
      .call .word .register 7] ∧
    Aligned s ∧ (7 : Reg) ≠ 0 ∧ (7 : Reg) ≠ 3 ∧ ((7 : Reg) = 2 → Mode.register = .register) ∧ s.isWritten 7 = false := by
  decide
theorem witness_unwritten_source_base :
    let s := launch [] [] []
    Instr.push .byte .postInc 15 ∈ [Instr.mov 15 .postInc .byte .register 6, .add 15 .postInc .byte .register 6,
      .addc 15 .postInc .byte .register 6, .subc 15 .postInc .byte .register 6, .sub 15 .postInc .byte .register 6,
      .cmp 15 .postInc .byte .register 6, .rrc .byte .postInc 15, .swpb .word .postInc 15, .rra .byte .postInc 15,
      .sxt .word .postInc 15, .push .byte .postInc 15, .call .word .postInc 15] ∧
    Aligned s ∧ (15 : Reg) ≠ 0 ∧ (15 : Reg) ≠ 3 ∧ ((15 : Reg) = 2 → Mode.postInc = .register) ∧
      s.isWritten 15 = false := by decide
/-- UnwrittenDestinationFaultsOnlyWhenRead: a destination register, the base of an indexed destination. -/
theorem witness_unwritten_destination :
    let s := launch [(5, 1)] [] []
    SourceReady .register .word 5 s ∧ (binaryTable 5 .register .word .register 6 s).state.isWritten 6 = false ∧
      (binaryTable 5 .register .word .indexed 6 s).state.isWritten 6 = false :=
  ⟨sourceReady_of (by decide), by decide, by decide⟩
/-- WrittenMarksAreNeverCleared. -/
theorem witness_marks : ∃ t, step (launch [(5, 1)] [] [0x4506]) = .next t ∧
    (launch [(5, 1)] [] [0x4506]).isWritten 5 = true :=
  (completes_of_isNext (by decide)).imp fun _ h => ⟨h, by decide⟩
/-- AllWrittenIsKeptAndNeverFaults. -/
theorem witness_allWritten : AllWritten (State.reset.withFetchWord 16 0x4506) ∧
    ∃ t, step (State.reset.withFetchWord 16 0x4506) = .next t :=
  ⟨by unfold AllWritten; decide, completes_of_isNext (by decide)⟩

/-! ### Memory -/

/-- ByteAccessTouchesOneByte, WordAccessIsLittleEndian and MemoryWriteTouchesItsWidth: the last word below the top, the
top byte, and a word at the PC. -/
theorem witness_memory :
    let s := State.construct 0xFFFE 0x0400
    Memory.wf s.mem ∧ (0xFFFE : Word) ≠ 0xFFFF ∧ 0xFFFE = s.pc ∧ Aligned s :=
  ⟨wf_construct .., by decide, by decide, by decide⟩
theorem witness_memory_top : Memory.wf (State.construct 0xC000 0x0400).mem ∧ (0xFFFF : Word) = 0xFFFF :=
  ⟨wf_construct .., rfl⟩
/-- WordAccessAtTopFaults: a source by each addressing form. -/
theorem witness_top_source_indirect :
    let s := launch [(4, 0xFFFF)] [] []
    Aligned s ∧ BaseWritten s (srcBase .indirect 4) ∧ BaseWritten s (srcBase .postInc 4) ∧
      srcLocation (s.setReg 0 (s.pc + 2)) .indirect 4 = .mem 0xFFFF ∧
      srcLocation (s.setReg 0 (s.pc + 2)) .postInc 4 = .mem 0xFFFF :=
  ⟨by decide, baseWritten_of (by decide), baseWritten_of (by decide), by decide, by decide⟩
theorem witness_top_source_indexed :
    let s := launch [(4, 0)] [] [0x4415, 0xFFFF]
    Aligned s ∧ BaseWritten s (srcBase .indexed 4) ∧
      srcLocation (s.setReg 0 (s.pc + 2)) .indexed 4 = .mem 0xFFFF ∧
      srcLocation (s.setReg 0 (s.pc + 2)) .indexed 2 = .mem 0xFFFF :=
  ⟨by decide, baseWritten_of (by decide), by decide, by decide⟩
/-- WordAccessAtTopFaults: a destination. -/
theorem witness_top_destination :
    let s := launch [(5, 1), (6, 0xFFFF)] [] [0x4586, 0x0000]
    BinaryReady 5 .register .word .indexed 6 s ∧ (binaryTable 5 .register .word .indexed 6 s).loc = .mem 0xFFFF :=
  ⟨binaryReady_of (by decide), by decide⟩
/-- WordAccessAtTopFaults: the store of PUSH, PUSH.B and CALL with SP = 1. -/
theorem witness_top_stack :
    let s := launch [(5, 1), (1, 1)] [] []
    SourceReady .register .word 5 s ∧ SourceReady .register .byte 5 s ∧
      (unaryTable .register .word 5 s).state.reg 1 = 1 ∧ (unaryTable .register .byte 5 s).state.reg 1 = 1 :=
  ⟨sourceReady_of (by decide), sourceReady_of (by decide), by decide, by decide⟩

/-! ### The resolver -/

/-- RoleCheckGuardsDestinationModes. -/
theorem witness_roleCheck : Mode.indirect ≠ .register ∧ Mode.indirect ≠ .indexed ∧ Mode.postInc ≠ .register ∧
    Mode.postInc ≠ .indexed := by decide
/-- SourceOperandsFollowTheTable and DestinationsAreNeverSubstituted: indexed by the PC, and by R2 as a destination. -/
theorem witness_resolver :
    let s := launch [] [] []
    BaseWritten s (srcBase .indexed 0) ∧ Aligned s ∧ BaseWritten s (dstBase .indexed 2) :=
  ⟨baseWritten_of (by decide), by decide, baseWritten_of (by decide)⟩
/-- SourceR2IsLiveAbsoluteOrConstant. -/
theorem witness_sourceR2 : Aligned (launch [] [] []) ∧ (launch [] [] []).isWritten 2 = true := by decide
/-- PostIncrementIsTwoForPcElseOne: the PC, and another register. -/
theorem witness_postInc :
    ((0 : Reg) ≠ 2 ∧ (0 : Reg) ≠ 3 ∧ (launch [] [] []).isWritten 0 = true) ∧
    ((15 : Reg) ≠ 2 ∧ (15 : Reg) ≠ 3 ∧ (launch [(15, 0xFFFF)] [] []).isWritten 15 = true) := by decide
/-- WriteToConstantOperandFaults, each constant generator. -/
theorem witness_constantOperand :
    (∀ as : Mode, Instr.swpb .word as 3 ∈
      [Instr.rrc .byte as 3, .swpb .word as 3, .rra .byte as 3, .sxt .word as 3]) ∧ ((3 : Reg) = 3 ∨
      ((3 : Reg) = 2 ∧ (Mode.postInc = .indirect ∨ Mode.postInc = .postInc))) ∧
    ((2 : Reg) = 3 ∨ ((2 : Reg) = 2 ∧ (Mode.postInc = .indirect ∨ Mode.postInc = .postInc))) :=
  ⟨fun as => by cases as <;> decide, by decide, by decide⟩

/-! ### The instructions -/

/-- MOV and the ALU instructions: a register destination, at both widths. -/
theorem witness_binary_register : ∀ bw : Width,
    let s := launch [(5, 1), (6, 2)] [] []
    BinaryReady 5 .register bw .register 6 s ∧
      Readable (binaryTable 5 .register bw .register 6 s).state (binaryTable 5 .register bw .register 6 s).loc bw ∧
      Writable (binaryTable 5 .register bw .register 6 s).loc bw := by
  intro bw
  cases bw <;> exact ⟨binaryReady_of (by decide), readable_of (by decide), writable_of (by decide)⟩
/-- MOV and the ALU instructions: a word destination at 0xFFFE, the last a word can have. -/
theorem witness_binary_memory :
    let s := launch [(5, 0x2000), (6, 0xFFFE)] [] [0x55B6, 0x0000]
    BinaryReady 5 .postInc .word .indexed 6 s ∧
      Readable (binaryTable 5 .postInc .word .indexed 6 s).state (binaryTable 5 .postInc .word .indexed 6 s).loc .word ∧
      Writable (binaryTable 5 .postInc .word .indexed 6 s).loc .word ∧
      (binaryTable 5 .postInc .word .indexed 6 s).loc = .mem 0xFFFE :=
  ⟨binaryReady_of (by decide), readable_of (by decide), writable_of (by decide), by decide⟩
/-- RRC, RRA, SWPB and SXT: a register operand at both widths, and a memory operand. -/
theorem witness_unary_register : ∀ bw : Width,
    let s := launch [(5, 0x8001)] [] []
    SourceReady .register bw 5 s ∧ Writable (unaryTable .register bw 5 s).loc bw := by
  intro bw
  cases bw <;> exact ⟨sourceReady_of (by decide), writable_of (by decide)⟩
theorem witness_unary_memory :
    let s := launch [(5, 0xFFFE)] [] []
    SourceReady .postInc .word 5 s ∧ Writable (unaryTable .postInc .word 5 s).loc .word :=
  ⟨sourceReady_of (by decide), writable_of (by decide)⟩
/-- PUSH, PUSH.B and CALL: SP = 0, so that the word goes to 0xFFFE. -/
theorem witness_stack : ∀ bw : Width,
    let s := launch [(5, 0x8001), (1, 0)] [] []
    SourceReady .register bw 5 s ∧ (unaryTable .register bw 5 s).state.reg 1 - 2 = 0xFFFE ∧
      (unaryTable .register bw 5 s).state.reg 1 - 2 ≠ 0xFFFF := by
  intro bw
  cases bw <;> exact ⟨sourceReady_of (by decide), by decide, by decide⟩
/-- BinaryCompletesExactlyWhenReady and UnaryCompletesExactlyWhenReady. -/
theorem witness_aligned : Aligned (launch [] [] []) := by decide
/-- FaultReportNamesItsInstruction: a fault with a word, and the one without. -/
theorem witness_faults : (∃ f, step (launch [] [] [0x0000]) = .fault f) ∧ ∃ f, step (launch [(0, 1)] [] []) = .fault f :=
  ⟨⟨.unimplementedOpcode ⟨0xC000, 0⟩, fault_of_faultOf (by decide)⟩,
    ⟨.misalignedFetch 1, fault_of_faultOf (by decide)⟩⟩

/-! ### Frames and invariants -/

/-- BinaryWriteBackFrame: MOV to a register, and ADD to memory with an `@Rn+` source. -/
theorem witness_binary_frame :
    (∃ t, exec (.mov 5 .register .word .register 6) (launch [(5, 1)] [] []) = .next t) ∧
    ∃ t, exec (.add 5 .postInc .word .indexed 6) (launch [(5, 0x2000), (6, 0x3000)] [] [0x55B6, 0x0002]) = .next t :=
  ⟨completes_of_isNext (by decide), completes_of_isNext (by decide)⟩
/-- CmpFrame. -/
theorem witness_cmp_frame :
    ∃ t, exec (.cmp 5 .postInc .word .register 6) (launch [(5, 0x2000), (6, 1)] [] []) = .next t :=
  completes_of_isNext (by decide)
/-- UnaryWriteBackFrame: SWPB of a register, RRC of memory. -/
theorem witness_unary_frame :
    (∃ t, exec (.swpb .word .register 5) (launch [(5, 1)] [] []) = .next t) ∧
    ∃ t, exec (.rrc .byte .postInc 5) (launch [(5, 0x2000)] [] []) = .next t :=
  ⟨completes_of_isNext (by decide), completes_of_isNext (by decide)⟩
/-- StackFrame: PUSH, CALL, and PUSH.B, whose stored byte is free. -/
theorem witness_stack_frame :
    (∃ t, exec (.push .word .postInc 1) (launch [] [] []) = .next t) ∧
    (∃ t, exec (.call .word .postInc 5) (launch [(5, 0x2000)] [] []) = .next t) ∧
    ∃ t, exec (.push .byte .register 5) (launch [(5, 1)] [] []) = .next t :=
  ⟨completes_of_isNext (by decide), completes_of_isNext (by decide), completes_of_isNext (by decide)⟩
/-- StepKeepsTheStateInvariant, from the model's reset with one instruction placed. -/
theorem witness_inv : Inv (State.reset.withFetchWord 16 0x4506) ∧
    ∃ t, step (State.reset.withFetchWord 16 0x4506) = .next t :=
  ⟨⟨by decide, by decide⟩, completes_of_isNext (by decide)⟩

/-! ### The host -/

/-- HostPushPopRoundTrips: SP = 0, SP = 1 and SP = 0xFFFF. -/
theorem witness_host :
    (Memory.wf (State.construct 0xC000 0).mem ∧ (State.construct 0xC000 0).reg 1 - 2 ≠ 0xFFFF) ∧
    (State.construct 0xC000 1).reg 1 - 2 = 0xFFFF ∧ (State.construct 0xC000 0xFFFF).reg 1 = 0xFFFF :=
  ⟨⟨wf_construct .., by decide⟩, by decide, by decide⟩
/-- LoadCopiesAnImageThatFits: an image that just fits, and one a byte longer. -/
theorem witness_load :
    Memory.wf (State.construct 0xFFFE 0x0400).mem ∧ (0xFFFE : Word).toNat + [(1 : Byte), 2].length ≤ 0x10000 ∧
      0x10000 < (0xFFFE : Word).toNat + [(1 : Byte), 2, 3].length := ⟨wf_construct .., by decide, by decide⟩

end Sys2Proof.Tests
end

section
/-!
PROOFS. Byte and word accesses of memory, and the fetch (20_memory.md R36, R37): what a load, a store and a fetch
answer where they do not fault, and the two statements about them.
-/

namespace Sys2Proof.Machine

open Sys2Proof Sys2Proof.Safety

/-- A little-endian word is its high byte before its low byte (20_memory.md R37). -/
theorem wordAt_eq_append (s : State) (a : Word) : s.wordAt a = s.byteAt (a + 1) ++ s.byteAt a := rfl

theorem loadMem_byte (site : Site) (a : Word) (s : State) : loadMem site .byte a s = .ok (zext16 (s.byteAt a)) :=
  loadMem_eq_ok.2 (.inl ⟨rfl, rfl⟩)

theorem loadMem_word {site : Site} {a : Word} {s : State} (ha : a ≠ 0xFFFF) :
    loadMem site .word a s = .ok (s.wordAt a) :=
  loadMem_eq_ok.2 (.inr ⟨rfl, ha, rfl⟩)

theorem storeMem_byte (site : Site) (a v : Word) (s : State) :
    storeMem site .byte a v s = .ok (s.setByte a (lowByte v)) :=
  storeMem_eq_ok.2 (.inl ⟨rfl, rfl⟩)

theorem storeMem_word {site : Site} {a v : Word} {s : State} (ha : a ≠ 0xFFFF) :
    storeMem site .word a v s = .ok (s.setWord a v) :=
  storeMem_eq_ok.2 (.inr ⟨rfl, ha, rfl⟩)

/-- A fetch at an even PC answers the word there and moves the PC by 2 (30_encoding.md R50). -/
theorem fetchWord_of_aligned {origin : Word} {s : State} (h : Aligned s) :
    fetchWord origin s = .ok (s.wordAt s.pc, s.setReg 0 (s.pc + 2)) :=
  fetchWord_eq_ok.2 ⟨h, rfl, advancePc_eq s⟩

/-- Mixed widths: a byte read at the address of a stored word sees its low byte (20_memory.md R37). -/
theorem loadMem_byte_setWord {site : Site} {s : State} {a v : Word} (h : Memory.wf s.mem) :
    loadMem site .byte a (s.setWord a v) = .ok (zext16 (lowByte v)) := by
  rw [loadMem_byte, byteAt_setWord_low h]

/-- A stored word reads back (20_memory.md R37). -/
theorem loadMem_word_setWord {site : Site} {s : State} {a v : Word} (h : Memory.wf s.mem) (ha : a ≠ 0xFFFF) :
    loadMem site .word a (s.setWord a v) = .ok v := by
  rw [loadMem_word ha, wordAt_setWord_same h]

/-- Settles O17: a byte store reads back at its address and is not seen at any other. -/
theorem byteAccessTouchesOneByte : Obligations.ByteAccessTouchesOneByte := by
  intro site s a v hm
  exact ⟨loadMem_byte .., s.setByte a (lowByte v), storeMem_byte .., byteAt_setByte_same hm,
    fun _ hb => byteAt_setByte_ne hb⟩

/-- Settles O18: load, store and fetch all go through the same little-endian word of two bytes. -/
theorem wordAccessIsLittleEndian : Obligations.WordAccessIsLittleEndian := by
  intro site s a v hm ha
  refine ⟨?load, ⟨s.setWord a v, storeMem_word ha, byteAt_setWord_low hm, byteAt_setWord_high hm,
    fun _ h0 h1 => byteAt_setWord_ne h0 h1, loadMem_word_setWord hm ha, loadMem_byte_setWord hm⟩, ?fetch⟩
  case load => rw [loadMem_word ha, wordAt_eq_append]
  case fetch =>
    rintro rfl hal
    rw [fetchWord_of_aligned hal, wordAt_eq_append]

end Sys2Proof.Machine
end

section
/-!
PROOFS. The decoder and the words that fault there (30_encoding.md R52-R62, R71): a decoded word encodes back, the words
that decode to a fault are those R71 lists, and no instruction with a handler raises one of their two faults.
-/

namespace Sys2Proof

/-! ## The fields of a word -/

@[simp] theorem Mode.toBits_ofBits (b : BitVec 2) : (Mode.ofBits b).toBits = b := by revert b; decide
@[simp] theorem Width.toBits_ofBits (b : BitVec 1) : (Width.ofBits b).toBits = b := by revert b; decide
@[simp] theorem DstMode.toBits_ofBits (b : BitVec 1) : (DstMode.ofBits b).toBits = b := by revert b; decide
@[simp] theorem Reg.toBits_ofBits (b : BitVec 4) : (Reg.ofBits b).toBits = b := rfl

theorem Width.ofBits_eq (b : BitVec 1) : Width.ofBits b = if b.toNat = 0 then .word else .byte := by revert b; decide

theorem opcode_toNat (w : Word) : (w.extractLsb' 12 4).toNat = w.toNat / 0x1000 := by
  rw [BitVec.extractLsb'_toNat, Nat.shiftRight_eq_div_pow]
  omega

theorem uop_toNat (w : Word) : (w.extractLsb' 7 3).toNat = w.toNat / 0x80 % 8 := by
  rw [BitVec.extractLsb'_toNat, Nat.shiftRight_eq_div_pow]

theorem unaryTag_iff (w : Word) : w.extractLsb' 10 6 = 0b000100#6 ↔ w.toNat / 0x400 = 4 := by
  rw [← BitVec.toNat_inj, BitVec.extractLsb'_toNat, Nat.shiftRight_eq_div_pow, BitVec.toNat_ofNat]
  omega

theorem bit11_iff (w : Word) : w.getLsbD 11 = true ↔ w.toNat / 0x800 % 2 = 1 := by
  simp [BitVec.getLsbD, Nat.testBit_eq_decide_div_mod_eq]

theorem widthField_toNat (w : Word) : (w.extractLsb' 6 1).toNat = w.toNat / 0x40 % 2 := by
  rw [BitVec.extractLsb'_toNat, Nat.shiftRight_eq_div_pow]

/-- A word whose high bits are `high` is `high` before its low bits. -/
theorem append_low_eq_self {n m high : Nat} {w : BitVec (n + m)} (h : w.toNat / 2 ^ m = high % 2 ^ n) :
    BitVec.ofNat n high ++ w.extractLsb' 0 m = w := by
  have e : BitVec.ofNat n high = w.extractLsb' m n := by
    apply BitVec.eq_of_toNat_eq
    rw [BitVec.extractLsb'_toNat, Nat.shiftRight_eq_div_pow, h, Nat.mod_mod, BitVec.toNat_ofNat]
  rw [e]
  exact (BitVec.extractLsb'_append_extractLsb'_eq_extractLsb' (Nat.zero_add m).symm).trans BitVec.extractLsb'_eq_self

/-! ## A decoded word encodes back (30_encoding.md R58) -/

/-- The fields of the binary format, put together again (30_encoding.md R52). -/
theorem encodeWord_binaryFields (op : BitVec 4) {mk : Reg → Mode → Width → DstMode → Reg → Instr} {w : Word}
    (hop : (w.extractLsb' 12 4).toNat = op.toNat)
    (hmk : ∀ sreg as bw ad dreg, encodeWord (mk sreg as bw ad dreg) = binaryWord op sreg as bw ad dreg) :
    encodeWord (binaryFields mk w) = w := by
  rw [binaryFields, hmk, ← BitVec.eq_of_toNat_eq hop]
  simp only [binaryWord, Reg.toBits_ofBits, Mode.toBits_ofBits, Width.toBits_ofBits, DstMode.toBits_ofBits,
    BitVec.extractLsb'_append_extractLsb'_eq_extractLsb', BitVec.extractLsb'_eq_self]

/-- The fields of the unary format, put together again (30_encoding.md R53). -/
theorem encodeWord_unaryFields (uop : BitVec 3) {mk : Width → Mode → Reg → Instr} {w : Word}
    (htag : w.extractLsb' 10 6 = 0b000100#6) (huop : (w.extractLsb' 7 3).toNat = uop.toNat)
    (hmk : ∀ bw as reg, encodeWord (mk bw as reg) = unaryWord uop bw as reg) :
    encodeWord (unaryFields mk w) = w := by
  rw [unaryFields, hmk, ← BitVec.eq_of_toNat_eq huop]
  simp only [unaryWord, ← htag, Reg.toBits_ofBits, Mode.toBits_ofBits, Width.toBits_ofBits,
    BitVec.extractLsb'_append_extractLsb'_eq_extractLsb', BitVec.extractLsb'_eq_self]

theorem encodeWord_wordOnlyFields (uop : BitVec 3) {mk : Width → Mode → Reg → Instr} {byteForm : Mode → Reg → Instr}
    {w : Word} (htag : w.extractLsb' 10 6 = 0b000100#6) (huop : (w.extractLsb' 7 3).toNat = uop.toNat)
    (hmk : ∀ as reg, encodeWord (mk .word as reg) = unaryWord uop .word as reg)
    (hbyte : ∀ as reg, encodeWord (byteForm as reg) = unaryWord uop .byte as reg) :
    encodeWord (wordOnlyFields mk byteForm w) = w :=
  encodeWord_unaryFields uop htag huop fun
    | .word => hmk
    | .byte => hbyte

theorem encodeWord_decodeBinary {w : Word} (hop : 4 ≤ (w.extractLsb' 12 4).toNat) :
    encodeWord (decodeBinary w) = w := by
  unfold decodeBinary
  split
  next h => exact encodeWord_binaryFields 4 h fun _ _ _ _ _ => rfl
  next h => exact encodeWord_binaryFields 5 h fun _ _ _ _ _ => rfl
  next h => exact encodeWord_binaryFields 6 h fun _ _ _ _ _ => rfl
  next h => exact encodeWord_binaryFields 7 h fun _ _ _ _ _ => rfl
  next h => exact encodeWord_binaryFields 8 h fun _ _ _ _ _ => rfl
  next h => exact encodeWord_binaryFields 9 h fun _ _ _ _ _ => rfl
  all_goals
    simp only [opcode_toNat, imp_false] at *
    exact append_low_eq_self (by omega)

theorem encodeWord_decodeUnary {w : Word} (htag : w.extractLsb' 10 6 = 0b000100#6) :
    encodeWord (decodeUnary w) = w := by
  unfold decodeUnary
  split
  next h => exact encodeWord_unaryFields 0 htag h fun _ _ _ => rfl
  next h => exact encodeWord_wordOnlyFields 1 htag h (fun _ _ => rfl) fun _ _ => rfl
  next h => exact encodeWord_unaryFields 2 htag h fun _ _ _ => rfl
  next h => exact encodeWord_wordOnlyFields 3 htag h (fun _ _ => rfl) fun _ _ => rfl
  next h => exact encodeWord_unaryFields 4 htag h fun _ _ _ => rfl
  next h => exact encodeWord_wordOnlyFields 5 htag h (fun _ _ => rfl) fun _ _ => rfl
  all_goals
    simp only [uop_toNat, unaryTag_iff, imp_false] at *
    exact append_low_eq_self (by omega)

theorem encodeWord_decodeUnclassified {w : Word} (hop : ¬ 4 ≤ (w.extractLsb' 12 4).toNat)
    (htag : w.extractLsb' 10 6 ≠ 0b000100#6) : encodeWord (decodeUnclassified w) = w := by
  unfold decodeUnclassified
  split
  on_goal 2 => split
  all_goals
    simp only [opcode_toNat, bit11_iff, unaryTag_iff, ne_eq, imp_false] at *
    exact append_low_eq_self (by omega)

/-- The encoder inverts the decoder at every word: decoding drops no bit (30_encoding.md R58). -/
theorem encodeWord_decodeWord (w : Word) : encodeWord (decodeWord w) = w := by
  unfold decodeWord
  split
  next hop => exact encodeWord_decodeBinary hop
  next hop =>
    split
    next htag => exact encodeWord_decodeUnary htag
    next htag => exact encodeWord_decodeUnclassified hop htag

end Sys2Proof

namespace Sys2Proof.Machine

open Sys2Proof Sys2Proof.Safety

/-! ## Which fault a word decodes to (30_encoding.md R71) -/

/-- The two faults that an instruction word itself raises (30_encoding.md R57, R59-R62). -/
inductive DecodeFault where
  | unimplemented
  | byteForm

/-- The report of such a fault (60_exceptions.md R132, R133). -/
def DecodeFault.report : DecodeFault → Site → Fault
  | .unimplemented => .unimplementedOpcode
  | .byteForm => .undefinedByteForm

/-- The fault an instruction raises before any operand step, if it is one that does (60_exceptions.md R137). -/
def decodeFault : Instr → Option DecodeFault
  | .unclassified0000 _ | .unclassified1400 _ | .unclassified1800 _ | .unclassified2000 _ => some .unimplemented
  | .unaryUop6 _ | .unaryUop7 _ | .binaryOpAB _ | .binaryOpCF _ => some .unimplemented
  | .swpbByte _ _ | .swpb .byte _ _ => some .unimplemented
  | .sxtByte _ _ | .callByte _ _ | .sxt .byte _ _ | .call .byte _ _ => some .byteForm
  | .mov _ _ _ _ _ | .add _ _ _ _ _ | .addc _ _ _ _ _ | .subc _ _ _ _ _ | .sub _ _ _ _ _ | .cmp _ _ _ _ _ => none
  | .rrc _ _ _ | .rra _ _ _ | .push _ _ _ | .swpb .word _ _ | .sxt .word _ _ | .call .word _ _ => none

/-- An instruction with a decode fault does nothing but report it: its arm of `exec` is the report. -/
theorem exec_eq_report {i : Instr} {k : DecodeFault} (h : decodeFault i = some k) (s : State) :
    exec i s = .fault (k.report (siteOf i s)) := by
  unfold decodeFault at h
  split at h <;> cases h <;> rfl

/-- The list of R71 in which a word with this verdict stands. -/
def Listed (w : Word) : Option DecodeFault → Prop
  | some .unimplemented => UnimplementedWord w
  | some .byteForm => ByteFormWord w
  | none => ¬ UnimplementedWord w ∧ ¬ ByteFormWord w

theorem listed_wordOnlyFields {mk : Width → Mode → Reg → Instr} {byteForm : Mode → Reg → Instr} {k : DecodeFault}
    {w : Word} (hmk : ∀ as reg, decodeFault (mk .word as reg) = none)
    (hbyte : ∀ as reg, decodeFault (byteForm as reg) = some k)
    (hword : w.toNat / 0x40 % 2 = 0 → Listed w none) (hlist : w.toNat / 0x40 % 2 ≠ 0 → Listed w (some k)) :
    Listed w (decodeFault (wordOnlyFields mk byteForm w)) := by
  rw [wordOnlyFields, unaryFields, Width.ofBits_eq, widthField_toNat]
  split_ifs with h
  · exact (hmk ..).symm ▸ hword h
  · exact (hbyte ..).symm ▸ hlist h

theorem listed_decodeBinary {w : Word} (hop : 4 ≤ (w.extractLsb' 12 4).toNat) :
    Listed w (decodeFault (decodeBinary w)) := by
  unfold decodeBinary
  split
  all_goals
    simp only [opcode_toNat, imp_false] at *
    simp only [Listed, decodeFault, binaryFields, UnimplementedWord, ByteFormWord]
    omega

theorem listed_decodeUnary {w : Word} (htag : w.extractLsb' 10 6 = 0b000100#6) :
    Listed w (decodeFault (decodeUnary w)) := by
  unfold decodeUnary
  split
  all_goals
    simp only [uop_toNat, unaryTag_iff, imp_false] at *
  case h_2 | h_4 | h_6 =>
    refine listed_wordOnlyFields (fun _ _ => rfl) (fun _ _ => rfl) (fun _ => ?_) fun _ => ?_
    all_goals
      simp only [Listed, UnimplementedWord, ByteFormWord]
      omega
  all_goals
    simp only [Listed, decodeFault, unaryFields, UnimplementedWord, ByteFormWord]
    omega

theorem listed_decodeUnclassified {w : Word} (hop : ¬ 4 ≤ (w.extractLsb' 12 4).toNat)
    (htag : w.extractLsb' 10 6 ≠ 0b000100#6) : Listed w (decodeFault (decodeUnclassified w)) := by
  unfold decodeUnclassified
  split
  on_goal 2 => split
  all_goals
    simp only [opcode_toNat, bit11_iff, unaryTag_iff, ne_eq, imp_false] at *
    simp only [Listed, decodeFault, UnimplementedWord]
    omega

/-- The decoder follows the table of R71: the words it gives a fault stand in the list of that fault, and the words it
gives a handler in neither. -/
theorem listed_decodeWord (w : Word) : Listed w (decodeFault (decodeWord w)) := by
  unfold decodeWord
  split
  next hop => exact listed_decodeBinary hop
  next hop =>
    split
    next htag => exact listed_decodeUnary htag
    next htag => exact listed_decodeUnclassified hop htag

/-! ## Instructions with a handler raise neither fault -/

/-- A computation that reports neither of the two decode faults. -/
structure NoDecodeFault {α : Type} (x : Except Fault α) : Prop where
  ne : ∀ (k : DecodeFault) (site : Site), x ≠ .error (k.report site)

theorem noDecodeFault_ok {α : Type} (a : α) : NoDecodeFault (.ok a) := ⟨nofun⟩

theorem NoDecodeFault.bind {α β : Type} {x : Except Fault α} {f : α → Except Fault β} (hx : NoDecodeFault x)
    (hf : ∀ a, NoDecodeFault (f a)) : NoDecodeFault (x >>= f) :=
  ⟨fun k site h => (bind_eq_error.1 h).elim (hx.ne k site) fun ⟨a, _, ha⟩ => (hf a).ne k site ha⟩

theorem NoDecodeFault.map {α β : Type} {x : Except Fault α} {f : α → β} (hx : NoDecodeFault x) :
    NoDecodeFault (x >>= fun a => pure (f a)) := hx.bind fun _ => noDecodeFault_ok _

theorem noDecodeFault_readReg (site : Site) (r : Reg) (s : State) : NoDecodeFault (readReg site r s) :=
  ⟨fun k _ h => by cases k <;> cases (readReg_eq_error.1 h).2⟩

theorem noDecodeFault_fetchWord (origin : Word) (s : State) : NoDecodeFault (fetchWord origin s) :=
  ⟨fun k _ h => by cases k <;> cases (fetchWord_eq_error.1 h).2⟩

theorem noDecodeFault_loadMem (site : Site) (w : Width) (a : Word) (s : State) : NoDecodeFault (loadMem site w a s) :=
  ⟨fun k _ h => by cases k <;> cases (loadMem_eq_error.1 h).2.2⟩

theorem noDecodeFault_storeMem (site : Site) (w : Width) (a v : Word) (s : State) :
    NoDecodeFault (storeMem site w a v s) :=
  ⟨fun k _ h => by cases k <;> cases (storeMem_eq_error.1 h).2.2⟩

theorem noDecodeFault_pushWord (site : Site) (v : Word) (s : State) : NoDecodeFault (pushWord site v s) :=
  noDecodeFault_storeMem ..

theorem noDecodeFault_pushByte (site : Site) (v : Word) (s : State) : NoDecodeFault (pushByte site v s) :=
  noDecodeFault_pushWord ..

theorem noDecodeFault_resolveMode (site : Site) (mode : Mode) (reg : Reg) (s : State) :
    NoDecodeFault (resolveMode site mode reg s) := ⟨fun k _ h => by
    rcases resolve_error_cases h with e | e <;> cases k <;> cases e⟩

theorem noDecodeFault_resolveSrc (site : Site) (mode : Mode) (reg : Reg) (s : State) :
    NoDecodeFault (resolveSrc site mode reg s) := by
  unfold resolveSrc
  split
  next => exact noDecodeFault_ok _
  next =>
    split
    next => exact (noDecodeFault_fetchWord ..).map
    next => exact noDecodeFault_resolveMode ..

theorem noDecodeFault_resolveDst (site : Site) (mode : Mode) (reg : Reg) (s : State) :
    NoDecodeFault (resolveDst site mode reg s) := by
  cases mode with
  | register => exact noDecodeFault_resolveMode site .register reg s
  | indexed => exact noDecodeFault_resolveMode site .indexed reg s
  | indirect | postInc => exact ⟨fun k _ h => by cases k <;> cases h⟩

theorem noDecodeFault_readLoc (site : Site) (loc : Location) (w : Width) (s : State) :
    NoDecodeFault (readLoc site loc w s) := by
  cases loc with
  | reg r => exact (noDecodeFault_readReg ..).map
  | mem a => exact noDecodeFault_loadMem ..
  | const v => exact noDecodeFault_ok _

theorem noDecodeFault_writeLoc (site : Site) (loc : Location) (w : Width) (v : Word) (s : State) :
    NoDecodeFault (writeLoc site loc w v s) := by
  cases loc with
  | reg r => exact noDecodeFault_ok _
  | mem a => exact noDecodeFault_storeMem ..
  | const _ => exact ⟨fun k _ h => by cases k <;> cases h⟩

theorem noDecodeFault_binaryOperands (site : Site) (sreg : Reg) (as : Mode) (bw : Width) (ad : DstMode) (dreg : Reg)
    (s : State) : NoDecodeFault (binaryOperands site sreg as bw ad dreg s) :=
  (noDecodeFault_resolveSrc ..).bind fun _ => (noDecodeFault_readLoc ..).bind fun _ =>
    (noDecodeFault_resolveDst ..).map

theorem noDecodeFault_unaryOperand (site : Site) (as : Mode) (bw : Width) (reg : Reg) (s : State) :
    NoDecodeFault (unaryOperand site as bw reg s) :=
  (noDecodeFault_resolveSrc ..).bind fun _ => (noDecodeFault_readLoc ..).map

theorem noDecodeFault_aluHandler (site : Site) (bw : Width) (o : Operand) (alu : Word → AluOut) :
    NoDecodeFault (aluHandler site bw o alu) :=
  (noDecodeFault_readLoc ..).bind fun _ => (noDecodeFault_writeLoc ..).map

theorem noDecodeFault_shiftHandler (site : Site) (bw : Width) (o : Operand) (result : Word) :
    NoDecodeFault (shiftHandler site bw o result) :=
  (noDecodeFault_writeLoc ..).map

theorem NoDecodeFault.finish_ne {x : Except Fault State} (hx : NoDecodeFault x) (k : DecodeFault) (site : Site) :
    finish x ≠ .fault (k.report site) := fun h => hx.ne k site (finish_eq_fault.1 h)

/-- The operand steps and the handler of an instruction with a handler raise neither fault. -/
theorem exec_ne_report {i : Instr} (h : decodeFault i = none) (s : State) (k : DecodeFault) (site : Site) :
    exec i s ≠ .fault (k.report site) := by
  cases i with
  | mov => exact ((noDecodeFault_binaryOperands ..).bind fun _ => noDecodeFault_writeLoc ..).finish_ne k site
  | add | addc | subc | sub =>
    exact ((noDecodeFault_binaryOperands ..).bind fun _ => noDecodeFault_aluHandler ..).finish_ne k site
  | cmp => exact ((noDecodeFault_binaryOperands ..).bind fun _ => (noDecodeFault_readLoc ..).map).finish_ne k site
  | rrc | rra => exact ((noDecodeFault_unaryOperand ..).bind fun _ => noDecodeFault_shiftHandler ..).finish_ne k site
  | push bw =>
    refine ((noDecodeFault_unaryOperand ..).bind fun _ => ?_).finish_ne k site
    cases bw with
    | word => exact noDecodeFault_pushWord ..
    | byte => exact noDecodeFault_pushByte ..
  | swpb bw =>
    cases bw with
    | word => exact ((noDecodeFault_unaryOperand ..).bind fun _ => noDecodeFault_writeLoc ..).finish_ne k site
    | byte => cases h
  | sxt bw =>
    cases bw with
    | word => exact ((noDecodeFault_unaryOperand ..).bind fun _ => (noDecodeFault_writeLoc ..).map).finish_ne k site
    | byte => cases h
  | call bw =>
    cases bw with
    | word => exact ((noDecodeFault_unaryOperand ..).bind fun _ => (noDecodeFault_pushWord ..).map).finish_ne k site
    | byte => cases h
  | _ => cases h

/-! ## The step -/

/-- A step at an even PC runs the instruction that the word there decodes to (00_scope.md R3). -/
theorem step_of_aligned {s : State} (h : Aligned s) : step s = exec (decodeWord (s.wordAt s.pc)) s := by
  rw [step, fetchInstr, fetchWord_of_aligned h]

/-- A fault of the word at the PC is reported with that PC and that word (60_exceptions.md R135). -/
theorem step_eq_report {s : State} {k : DecodeFault} (hal : Aligned s)
    (h : decodeFault (decodeWord (s.wordAt s.pc)) = some k) :
    step s = .fault (k.report ⟨s.pc, s.wordAt s.pc⟩) := by
  rw [step_of_aligned hal, exec_eq_report h, siteOf, encodeWord_decodeWord]

/-- The two lists of R71 share no word. -/
theorem not_unimplementedWord_of_byteFormWord {w : Word} (h : ByteFormWord w) : ¬ UnimplementedWord w := by
  simp only [ByteFormWord, UnimplementedWord] at *
  omega

/-- Settles O3: the verdict of the decoder decides the step, and the lists of R71 decide the verdict. -/
theorem reservedRangesFaultAndNoOthers : Obligations.ReservedRangesFaultAndNoOthers := by
  intro s hal
  have listed := listed_decodeWord (s.wordAt s.pc)
  match hk : decodeFault (decodeWord (s.wordAt s.pc)), listed with
  | some .unimplemented, hu =>
    exact ⟨fun _ => step_eq_report hal hk, fun hb => absurd hu (not_unimplementedWord_of_byteFormWord hb),
      fun hn => absurd hu hn⟩
  | some .byteForm, hb =>
    exact ⟨fun hu => absurd hu (not_unimplementedWord_of_byteFormWord hb), fun _ => step_eq_report hal hk,
      fun _ hn => absurd hb hn⟩
  | none, ⟨hu, hb⟩ =>
    refine ⟨fun h => absurd h hu, fun h => absurd h hb, fun _ _ site => ?_⟩
    rw [step_of_aligned hal]
    exact ⟨exec_ne_report hk s .unimplemented site, exec_ne_report hk s .byteForm site⟩

end Sys2Proof.Machine
end

section
/-!
PROOFS. The operand resolver (40_operand_resolver.md R74, R82-R87): constant generators, absolute mode, register
Locations at both widths, and which faults the operand steps and handlers can raise.
-/

namespace Sys2Proof.Machine

open Sys2Proof Sys2Proof.Safety

/-! ## The branches of the source resolver -/

/-- A substituted operand is its constant, and nothing is done for it (40_operand_resolver.md R75). -/
theorem resolve_src_of_constant {mode : Mode} {reg : Reg} {v : Word} (h : constantOf reg mode = some v) (site : Site)
    (s : State) : resolve site .src mode reg s = .ok (.const v, s) := by
  simp only [resolve, resolveSrc, h]

/-- R2 in mode 1 is absolute: the address is the extension word alone (40_operand_resolver.md R84). -/
theorem resolve_src_absolute (site : Site) (s : State) :
    resolve site .src .indexed 2 s = (fetchWord site.pc s >>= fun x => pure (.mem x.1, x.2)) := rfl

theorem resolve_src_of_mode {mode : Mode} {reg : Reg} (hc : constantOf reg mode = none)
    (ha : ¬ (reg = 2 ∧ mode = .indexed)) (site : Site) (s : State) :
    resolve site .src mode reg s = resolveMode site mode reg s := by
  simp only [resolve, resolveSrc, hc, if_neg ha]

/-! ## Reading and writing at a width -/

/-- Masking to a width is what a register write at that width keeps (40_operand_resolver.md R86, R87). -/
theorem and_mask_eq_narrow (w : Width) (v : Word) : v &&& mask w = narrow w v := by
  cases w with
  | word => exact mask_word v
  | byte =>
    have low : (v &&& mask .byte).toNat = v.toNat % 2 ^ 8 := Nat.and_two_pow_sub_one_eq_mod v.toNat 8
    have kept : (v.extractLsb' 0 8).toNat = v.toNat % 2 ^ 8 := BitVec.extractLsb'_toNat ..
    exact BitVec.eq_of_toNat_eq (by rw [low, narrow, zext16, lowByte, BitVec.toNat_setWidth, kept]; omega)

theorem readLoc_const (site : Site) (v : Word) (w : Width) (s : State) :
    readLoc site (.const v) w s = .ok (v &&& mask w) := rfl

theorem readLoc_reg_of_written {r : Reg} {s : State} (h : s.isWritten r = true) (site : Site) (w : Width) :
    readLoc site (.reg r) w s = .ok (narrow w (s.reg r)) := by
  rw [readLoc, readReg_eq_ok.2 ⟨h, rfl⟩, ok_bind, and_mask_eq_narrow, pure_eq_ok]

/-- A write to a register's Location leaves the value narrowed to the width in it (40_operand_resolver.md R87). -/
theorem reg_of_writeLoc_reg (site : Site) (r : Reg) (w : Width) (v : Word) (s : State) :
    ∃ t, writeLoc site (.reg r) w v s = .ok t ∧ t.reg r = narrow w v :=
  ⟨s.setReg r (narrow w v), writeLoc_reg .., by simp⟩

/-! ## Constants and R2 as a source -/

/-- Settles O23: in every mode R3 is substituted, and a constant reads as itself within the mask of the width. -/
theorem sourceR3IsAlwaysAConstant : Obligations.SourceR3IsAlwaysAConstant := by
  intro site s
  have substituted {mode : Mode} {v : Word} (h : constantOf 3 mode = some v) := resolve_src_of_constant h site s
  exact ⟨⟨substituted rfl, substituted rfl, substituted rfl, substituted rfl⟩,
    ⟨readLoc_const .., readLoc_const .., readLoc_const .., readLoc_const ..⟩,
    readLoc_const .., readLoc_const .., readLoc_const .., readLoc_const ..⟩

/-- Settles O24: R2 is substituted in modes 2 and 3, absolute in mode 1, and a plain register in mode 0. -/
theorem sourceR2IsLiveAbsoluteOrConstant : Obligations.SourceR2IsLiveAbsoluteOrConstant := by
  intro site s
  refine ⟨resolve_src_of_constant rfl site s, resolve_src_of_constant rfl site s, fun hal => ?absolute, ?register,
    fun hw => ⟨readLoc_reg_of_written hw site .word, readLoc_reg_of_written hw site .byte⟩⟩
  case absolute => rw [resolve_src_absolute, fetchWord_of_aligned hal, ok_bind, pure_eq_ok]
  case register => rw [resolve_src_of_mode rfl (by decide), resolveMode_register]

/-- Settles O26: a register write narrows its value to the width, and a byte narrows to its zero-extension. -/
theorem byteWriteToRegisterClearsHighByte : Obligations.ByteWriteToRegisterClearsHighByte := fun site r v s =>
  ⟨reg_of_writeLoc_reg site r .word v s, reg_of_writeLoc_reg site r .byte v s⟩

/-! ## The faults of the operand steps and the handlers -/

/-- The four faults that the steps of an instruction with a handler can raise, each reported with the address of that
instruction and, but for a misaligned fetch, its word (60_exceptions.md R133, R135). The addressing-mode fault is not
one of them. -/
inductive OperandFault (site : Site) : Fault → Prop
  | misalignedFetch : OperandFault site (.misalignedFetch site.pc)
  | uninitializedRegister (r : Reg) : OperandFault site (.uninitializedRegister site r)
  | wordAccessAtTop (a : Word) : OperandFault site (.wordAccessAtTop site a)
  | constantDestination : OperandFault site (.constantDestination site)

/-- A computation that, where it faults, raises an operand fault of `site`. -/
structure RaisesOperandFaults {α : Type} (site : Site) (x : Except Fault α) : Prop where
  operandFault : ∀ {f : Fault}, x = .error f → OperandFault site f

section
variable {α β : Type} {site : Site}

theorem raisesOperandFaults_ok (a : α) : RaisesOperandFaults site (.ok a) := ⟨nofun⟩

theorem RaisesOperandFaults.bind {x : Except Fault α} {f : α → Except Fault β} (hx : RaisesOperandFaults site x)
    (hf : ∀ a, RaisesOperandFaults site (f a)) : RaisesOperandFaults site (x >>= f) :=
  ⟨fun h => (bind_eq_error.1 h).elim hx.operandFault fun ⟨a, _, ha⟩ => (hf a).operandFault ha⟩

/-- A pure function after the last step raises nothing. -/
theorem RaisesOperandFaults.map {x : Except Fault α} {f : α → β} (hx : RaisesOperandFaults site x) :
    RaisesOperandFaults site (x >>= fun a => pure (f a)) := hx.bind fun _ => raisesOperandFaults_ok _

theorem raisesOperandFaults_storeMem (w : Width) (a v : Word) (s : State) :
    RaisesOperandFaults site (storeMem site w a v s) :=
  ⟨fun h => (storeMem_eq_error.1 h).2.2 ▸ .wordAccessAtTop a⟩

theorem raisesOperandFaults_resolveMode (mode : Mode) (reg : Reg) (s : State) :
    RaisesOperandFaults site (resolveMode site mode reg s) := ⟨fun h => by
  obtain rfl | rfl := resolve_error_cases h
  · exact .misalignedFetch
  · exact .uninitializedRegister reg⟩

theorem raisesOperandFaults_resolve_src (mode : Mode) (reg : Reg) (s : State) :
    RaisesOperandFaults site (resolve site .src mode reg s) := by
  cases hc : constantOf reg mode with
  | some v => exact resolve_src_of_constant hc site s ▸ raisesOperandFaults_ok _
  | none =>
    by_cases ha : reg = 2 ∧ mode = .indexed
    · obtain ⟨rfl, rfl⟩ := ha
      have fetch : RaisesOperandFaults site (fetchWord site.pc s) :=
        ⟨fun h => (fetchWord_eq_error.1 h).2 ▸ .misalignedFetch⟩
      exact resolve_src_absolute site s ▸ fetch.map
    · exact resolve_src_of_mode hc ha site s ▸ raisesOperandFaults_resolveMode mode reg s

/-- The two modes an Ad field can name pass the role check (30_encoding.md R63). -/
theorem raisesOperandFaults_resolve_dst (ad : DstMode) (reg : Reg) (s : State) :
    RaisesOperandFaults site (resolve site .dst (dstMode ad) reg s) := by
  cases ad with
  | register => exact raisesOperandFaults_resolveMode .register reg s
  | indexed => exact raisesOperandFaults_resolveMode .indexed reg s

theorem raisesOperandFaults_readLoc (loc : Location) (w : Width) (s : State) :
    RaisesOperandFaults site (readLoc site loc w s) := by
  cases loc with
  | reg r =>
    have read : RaisesOperandFaults site (readReg site r s) :=
      ⟨fun h => (readReg_eq_error.1 h).2 ▸ .uninitializedRegister r⟩
    exact read.map
  | mem a => exact ⟨fun h => (loadMem_eq_error.1 h).2.2 ▸ .wordAccessAtTop a⟩
  | const v => exact raisesOperandFaults_ok _

theorem raisesOperandFaults_writeLoc (loc : Location) (w : Width) (v : Word) (s : State) :
    RaisesOperandFaults site (writeLoc site loc w v s) := by
  cases loc with
  | reg r => exact raisesOperandFaults_ok _
  | mem a => exact raisesOperandFaults_storeMem w a v s
  | const _ => exact ⟨fun h => by cases h; exact .constantDestination⟩

theorem raisesOperandFaults_binaryOperands (sreg : Reg) (as : Mode) (bw : Width) (ad : DstMode) (dreg : Reg)
    (s : State) : RaisesOperandFaults site (binaryOperands site sreg as bw ad dreg s) :=
  (raisesOperandFaults_resolve_src ..).bind fun _ => (raisesOperandFaults_readLoc ..).bind fun _ =>
    (raisesOperandFaults_resolve_dst ..).map

theorem raisesOperandFaults_unaryOperand (as : Mode) (bw : Width) (reg : Reg) (s : State) :
    RaisesOperandFaults site (unaryOperand site as bw reg s) :=
  (raisesOperandFaults_resolve_src ..).bind fun _ => (raisesOperandFaults_readLoc ..).map

theorem raisesOperandFaults_aluHandler (bw : Width) (o : Operand) (alu : Word → AluOut) :
    RaisesOperandFaults site (aluHandler site bw o alu) :=
  (raisesOperandFaults_readLoc ..).bind fun _ => (raisesOperandFaults_writeLoc ..).map

theorem raisesOperandFaults_pushWord (v : Word) (s : State) : RaisesOperandFaults site (pushWord site v s) :=
  raisesOperandFaults_storeMem ..

/-- The operand fault behind the fault an instruction ends with. -/
theorem RaisesOperandFaults.of_finish {x : Except Fault State} {f : Fault} (hx : RaisesOperandFaults site x)
    (h : finish x = .fault f) : OperandFault site f := hx.operandFault (finish_eq_fault.1 h)

end

/-- An instruction with a handler faults only in its operand steps and its handler. -/
theorem operandFault_of_exec {i : Instr} {s : State} {f : Fault} (hi : decodeFault i = none)
    (h : exec i s = .fault f) : OperandFault (siteOf i s) f := by
  cases i with
  | mov =>
    exact ((raisesOperandFaults_binaryOperands ..).bind fun _ => raisesOperandFaults_writeLoc ..).of_finish h
  | add | addc | subc | sub =>
    exact ((raisesOperandFaults_binaryOperands ..).bind fun _ => raisesOperandFaults_aluHandler ..).of_finish h
  | cmp =>
    exact ((raisesOperandFaults_binaryOperands ..).bind fun _ => (raisesOperandFaults_readLoc ..).map).of_finish h
  | rrc | rra =>
    exact ((raisesOperandFaults_unaryOperand ..).bind fun _ => (raisesOperandFaults_writeLoc ..).map).of_finish h
  | push bw =>
    refine ((raisesOperandFaults_unaryOperand ..).bind fun o => ?_).of_finish h
    cases bw with
    | word => exact raisesOperandFaults_pushWord ..
    | byte => exact pushByte_eq _ o.value o.state ▸ raisesOperandFaults_pushWord ..
  | swpb bw =>
    cases bw with
    | word => exact ((raisesOperandFaults_unaryOperand ..).bind fun _ => raisesOperandFaults_writeLoc ..).of_finish h
    | byte => cases hi
  | sxt bw =>
    cases bw with
    | word =>
      exact ((raisesOperandFaults_unaryOperand ..).bind fun _ => (raisesOperandFaults_writeLoc ..).map).of_finish h
    | byte => cases hi
  | call bw =>
    cases bw with
    | word =>
      exact ((raisesOperandFaults_unaryOperand ..).bind fun _ => (raisesOperandFaults_pushWord ..).map).of_finish h
    | byte => cases hi
  | _ => cases hi

/-- Every fault of an instruction: the one its word itself raises, or one of its operand steps and handler
(60_exceptions.md R131-R133). -/
theorem exec_fault_cases {i : Instr} {s : State} {f : Fault} (h : exec i s = .fault f) :
    (∃ k, decodeFault i = some k ∧ f = k.report (siteOf i s)) ∨
      (decodeFault i = none ∧ OperandFault (siteOf i s) f) := by
  cases hk : decodeFault i with
  | some k => exact .inl ⟨k, rfl, by simpa [exec_eq_report hk, eq_comm] using h⟩
  | none => exact .inr ⟨rfl, operandFault_of_exec hk h⟩

/-! ## The role check -/

/-- A destination mode other than 0 and 1 faults before any other action (40_operand_resolver.md R74). -/
theorem resolve_dst_of_illegal_mode {mode : Mode} (h0 : mode ≠ .register) (h1 : mode ≠ .indexed) (site : Site)
    (reg : Reg) (s : State) : resolve site .dst mode reg s = .error (.unsupportedAddressingMode site .dst mode) := by
  cases mode with
  | register => exact absurd rfl h0
  | indexed => exact absurd rfl h1
  | indirect | postInc => rfl

/-- Settles O20: the role check comes first, and the addressing-mode fault is neither an operand fault nor one that an
instruction word raises. -/
theorem roleCheckGuardsDestinationModes : Obligations.RoleCheckGuardsDestinationModes := by
  refine ⟨fun site mode reg s h0 h1 => resolve_dst_of_illegal_mode h0 h1 site reg s, ?source, ?exec⟩
  case source =>
    intro site site' role mode mode' reg s h
    nomatch (raisesOperandFaults_resolve_src mode reg s).operandFault h
  case exec =>
    intro i s site role mode h
    obtain ⟨k, -, hk⟩ | ⟨-, hf⟩ := exec_fault_cases h
    · cases k <;> cases hk
    · cases hf

end Sys2Proof.Machine
end

section
/-!
PROOFS. The ALU (41_alu.md R96-R102): the masks of a width as low bits and single bits, the exact sum behind the 17-bit
one, and the four flags by their definitions.
-/

namespace Sys2Proof.Machine

open Sys2Proof Sys2Proof.Safety

/-! ## The masks of a width (00_scope.md R10) -/

/-- Masking to a width keeps the unsigned value of its low bits. -/
theorem toNat_and_mask (w : Width) (v : Word) : (v &&& mask w).toNat = low w v := by
  cases w with
  | byte => exact Nat.and_two_pow_sub_one_eq_mod v.toNat 8
  | word => rw [mask_word]; exact (Nat.mod_eq_of_lt v.isLt).symm

theorem low_lt (w : Width) (v : Word) : low w v < 2 ^ bits w := Nat.mod_lt _ (Nat.two_pow_pos _)

/-- Masking to a width keeps its sign bit. -/
theorem getLsbD_sign_and_mask (w : Width) (v : Word) :
    (v &&& mask w).getLsbD (bits w - 1) = v.getLsbD (bits w - 1) := by
  have kept : (mask w).getLsbD (bits w - 1) = true := by cases w <;> rfl
  rw [BitVec.getLsbD_and, kept, Bool.and_true]

/-- A value under a one-bit mask is non-zero exactly when it has that bit. -/
theorem and_twoPow_ne_zero {n i : Nat} (v : BitVec n) (hi : i < n) :
    (v &&& BitVec.twoPow n i != 0) = v.getLsbD i := by
  have single : BitVec.twoPow n i ≠ 0 := fun h => by
    simpa [hi] using congrArg (BitVec.getLsbD · i) h
  rw [BitVec.and_twoPow]
  cases v.getLsbD i with
  | true => exact bne_iff_ne.2 single
  | false => exact bne_self_eq_false 0

theorem signMask_eq_twoPow (w : Width) : signMask w = BitVec.twoPow 16 (bits w - 1) := by cases w <;> rfl

theorem carryMask_eq_twoPow (w : Width) : carryMask w = BitVec.twoPow 17 (bits w) := by cases w <;> rfl

/-- N of R98 is the sign bit of the width. -/
theorem negative_eq_getLsbD (w : Width) (v : Word) : negative w v = v.getLsbD (bits w - 1) := by
  rw [negative, signMask_eq_twoPow, and_twoPow_ne_zero v (by cases w <;> decide)]

/-- The carry mask picks the bit above the width (41_alu.md R100). -/
theorem and_carryMask_ne_zero (w : Width) (raw : BitVec 17) : (raw &&& carryMask w != 0) = raw.getLsbD (bits w) := by
  rw [carryMask_eq_twoPow, and_twoPow_ne_zero raw (by cases w <;> decide)]

/-- The top bit of a number of `k + 1` bits says whether it is `2 ^ k` or more. -/
theorem testBit_iff_two_pow_le {x k : Nat} (h : x < 2 ^ (k + 1)) : x.testBit k = true ↔ 2 ^ k ≤ x :=
  ⟨Nat.ge_two_pow_of_testBit, fun hk => Nat.testBit_of_two_pow_le_and_two_pow_add_one_gt hk h⟩

/-- The sign bit of a width is set exactly when its low bits are in the upper half of their range. -/
theorem getLsbD_sign_iff (w : Width) (v : Word) : v.getLsbD (bits w - 1) = true ↔ 2 ^ (bits w - 1) ≤ low w v := by
  rw [← getLsbD_sign_and_mask, BitVec.getLsbD, toNat_and_mask]
  exact testBit_iff_two_pow_le (by cases w <;> exact low_lt _ v)

/-! ## The sum -/

/-- The 17-bit sum of R96. -/
def rawSum (w : Width) (src dst : Word) (cin : Bool) : BitVec 17 :=
  (src &&& mask w).setWidth 17 + (dst &&& mask w).setWidth 17 + (BitVec.ofBool cin).setWidth 17

/-- The exact sum fits in one bit more than the width has. -/
theorem low_add_low_add_lt (w : Width) (src dst : Word) (cin : Bool) :
    low w src + low w dst + cin.toNat < 2 ^ (bits w + 1) := by
  have hs := low_lt w src
  have hd := low_lt w dst
  have hc := cin.toNat_le
  rw [Nat.pow_succ]
  omega

/-- The 17 bits lose nothing of the sum. -/
theorem toNat_rawSum (w : Width) (src dst : Word) (cin : Bool) :
    (rawSum w src dst cin).toNat = low w src + low w dst + cin.toNat := by
  have fits : low w src + low w dst + cin.toNat < 2 ^ 17 :=
    (low_add_low_add_lt w src dst cin).trans_le (by cases w <;> decide)
  simp only [rawSum, BitVec.toNat_add, BitVec.toNat_setWidth, toNat_and_mask, BitVec.toNat_ofBool]
  omega

/-! ## The answer of the ALU -/

theorem addWithCarry_result (w : Width) (src dst : Word) (cin : Bool) :
    (addWithCarry w src dst cin).result = (rawSum w src dst cin).setWidth 16 &&& mask w := rfl

theorem addWithCarry_n (w : Width) (src dst : Word) (cin : Bool) :
    (addWithCarry w src dst cin).n = (addWithCarry w src dst cin).result.getLsbD (bits w - 1) :=
  negative_eq_getLsbD ..

theorem addWithCarry_z (w : Width) (src dst : Word) (cin : Bool) :
    (addWithCarry w src dst cin).z = ((addWithCarry w src dst cin).result == 0) := rfl

theorem addWithCarry_c (w : Width) (src dst : Word) (cin : Bool) :
    (addWithCarry w src dst cin).c = (rawSum w src dst cin).getLsbD (bits w) := and_carryMask_ne_zero ..

/-- V compares sign bits only, and the result has that of the sum (41_alu.md R101). -/
theorem addWithCarry_v (w : Width) (src dst : Word) (cin : Bool) :
    (addWithCarry w src dst cin).v =
      (src.getLsbD (bits w - 1) == dst.getLsbD (bits w - 1) &&
        ((addWithCarry w src dst cin).result.getLsbD (bits w - 1) ^^ dst.getLsbD (bits w - 1))) := by
  have unfolded : (addWithCarry w src dst cin).v =
    (negative w (src &&& mask w) == negative w (dst &&& mask w) &&
      negative w ((rawSum w src dst cin).setWidth 16 ^^^ (dst &&& mask w))) := rfl
  simp only [unfolded, negative_eq_getLsbD, BitVec.getLsbD_xor, addWithCarry_result, getLsbD_sign_and_mask]

/-- The result is the exact sum modulo the width (41_alu.md R102). -/
theorem toNat_result (w : Width) (src dst : Word) (cin : Bool) :
    (addWithCarry w src dst cin).result.toNat = (low w src + low w dst + cin.toNat) % 2 ^ bits w := by
  rw [addWithCarry_result, toNat_and_mask, low, BitVec.toNat_setWidth, toNat_rawSum]
  exact Nat.mod_mod_of_dvd _ (by cases w <;> decide)

/-- Settles O29: the 17-bit sum is exact, so the result and each flag of R98-R101 are read off it bit by bit. -/
theorem aluFlagsFollowTheirDefinitions : Obligations.AluFlagsFollowTheirDefinitions := by
  intro w src dst cin r sum
  have result : r.result.toNat = sum % 2 ^ bits w := toNat_result w src dst cin
  refine ⟨result, ?n, ?z, ?c, ?v⟩
  case n =>
    have masked : low w r.result = sum % 2 ^ bits w := by rw [low, result, Nat.mod_mod]
    rw [addWithCarry_n, getLsbD_sign_iff, masked]
  case z => rw [addWithCarry_z, beq_iff_eq, ← BitVec.toNat_inj, result, BitVec.ofNat_eq_ofNat, BitVec.toNat_zero]
  case c =>
    rw [addWithCarry_c, BitVec.getLsbD, toNat_rawSum]
    exact testBit_iff_two_pow_le (low_add_low_add_lt w src dst cin)
  case v => rw [addWithCarry_v, Bool.and_eq_true, beq_iff_eq, Bool.xor_iff_ne]

end Sys2Proof.Machine
end

section
/-!
PROOFS. The encoder and the decoder as inverses of one another (30_encoding.md R52-R60), and the step as the fetch and
the decoded instruction (00_scope.md R3, R8).
-/

namespace Sys2Proof

/-! ## The fields of an encoded word -/

@[simp] theorem Mode.ofBits_toBits (m : Mode) : Mode.ofBits m.toBits = m := by cases m <;> rfl
@[simp] theorem Width.ofBits_toBits (w : Width) : Width.ofBits w.toBits = w := by cases w <;> rfl
@[simp] theorem DstMode.ofBits_toBits (m : DstMode) : DstMode.ofBits m.toBits = m := by cases m <;> rfl
@[simp] theorem Reg.ofBits_toBits (r : Reg) : Reg.ofBits r.toBits = r := rfl

/-- The fields of a binary word stand where R52 puts them. -/
theorem fields_binaryWord (op : BitVec 4) (sreg : Reg) (as : Mode) (bw : Width) (ad : DstMode) (dreg : Reg) :
    (binaryWord op sreg as bw ad dreg).extractLsb' 12 4 = op ∧
      (binaryWord op sreg as bw ad dreg).extractLsb' 8 4 = sreg.toBits ∧
      (binaryWord op sreg as bw ad dreg).extractLsb' 6 2 = as.toBits ∧
      (binaryWord op sreg as bw ad dreg).extractLsb' 5 1 = bw.toBits ∧
      (binaryWord op sreg as bw ad dreg).extractLsb' 4 1 = ad.toBits ∧
      (binaryWord op sreg as bw ad dreg).extractLsb' 0 4 = dreg.toBits := by
  unfold binaryWord
  refine ⟨?opcode, ?_, ?_, ?_, ?_, ?_⟩
  all_goals repeat rw [BitVec.extractLsb'_append_eq_of_le (by decide)]
  case opcode => exact BitVec.extractLsb'_eq_self
  all_goals exact BitVec.extractLsb'_append_eq_right

/-- The fields of a unary word stand where R53 puts them. -/
theorem fields_unaryWord (uop : BitVec 3) (bw : Width) (as : Mode) (reg : Reg) :
    (unaryWord uop bw as reg).extractLsb' 10 6 = 0b000100#6 ∧ (unaryWord uop bw as reg).extractLsb' 7 3 = uop ∧
      (unaryWord uop bw as reg).extractLsb' 6 1 = bw.toBits ∧ (unaryWord uop bw as reg).extractLsb' 4 2 = as.toBits ∧
      (unaryWord uop bw as reg).extractLsb' 0 4 = reg.toBits := by
  unfold unaryWord
  refine ⟨?tag, ?_, ?_, ?_, ?_⟩
  all_goals repeat rw [BitVec.extractLsb'_append_eq_of_le (by decide)]
  case tag => exact BitVec.extractLsb'_eq_self
  all_goals exact BitVec.extractLsb'_append_eq_right

theorem binaryFields_binaryWord (mk : Reg → Mode → Width → DstMode → Reg → Instr) (op : BitVec 4) (sreg : Reg)
    (as : Mode) (bw : Width) (ad : DstMode) (dreg : Reg) :
    binaryFields mk (binaryWord op sreg as bw ad dreg) = mk sreg as bw ad dreg := by
  obtain ⟨-, hsreg, has, hbw, had, hdreg⟩ := fields_binaryWord op sreg as bw ad dreg
  simp [binaryFields, hsreg, has, hbw, had, hdreg]

theorem unaryFields_unaryWord (mk : Width → Mode → Reg → Instr) (uop : BitVec 3) (bw : Width) (as : Mode) (reg : Reg) :
    unaryFields mk (unaryWord uop bw as reg) = mk bw as reg := by
  obtain ⟨-, -, hbw, has, hreg⟩ := fields_unaryWord uop bw as reg
  simp [unaryFields, hbw, has, hreg]

/-! ## The classifier on an encoded word (30_encoding.md R55-R57) -/

theorem decodeWord_of_opcode {w : Word} (h : 4 ≤ (w.extractLsb' 12 4).toNat) : decodeWord w = decodeBinary w :=
  if_pos h

theorem decodeWord_of_tag {w : Word} (h : w.extractLsb' 10 6 = 0b000100#6) : decodeWord w = decodeUnary w := by
  have hop : ¬ 4 ≤ (w.extractLsb' 12 4).toNat := by
    rw [opcode_toNat]
    have := (unaryTag_iff w).1 h
    omega
  rw [decodeWord, if_neg hop, if_pos h]

theorem decodeWord_of_neither {w : Word} (hop : w.toNat / 0x1000 < 4) (htag : w.toNat / 0x400 ≠ 4) :
    decodeWord w = decodeUnclassified w := by
  rw [decodeWord, if_neg (by rw [opcode_toNat]; omega), if_neg (by rwa [unaryTag_iff])]

theorem decodeWord_binaryWord {op : BitVec 4} (hop : 4 ≤ op.toNat) (sreg : Reg) (as : Mode) (bw : Width)
    (ad : DstMode) (dreg : Reg) :
    decodeWord (binaryWord op sreg as bw ad dreg) = decodeBinary (binaryWord op sreg as bw ad dreg) :=
  decodeWord_of_opcode (by rwa [(fields_binaryWord ..).1])

theorem decodeWord_unaryWord (uop : BitVec 3) (bw : Width) (as : Mode) (reg : Reg) :
    decodeWord (unaryWord uop bw as reg) = decodeUnary (unaryWord uop bw as reg) :=
  decodeWord_of_tag (fields_unaryWord ..).1

/-- The number of a word with `k` in the bits above `low`. -/
theorem toNat_ofNat_append {n m : Nat} (k : Nat) (hk : k < 2 ^ n) (low : BitVec m) :
    (BitVec.ofNat n k ++ low).toNat = k * 2 ^ m + low.toNat := by
  rw [BitVec.toNat_append, ← Nat.shiftLeft_add_eq_or_of_lt low.isLt, Nat.shiftLeft_eq, BitVec.toNat_ofNat,
    Nat.mod_eq_of_lt hk]

/-! ### The rows without operand fields (30_encoding.md R57, R59, R60) -/

theorem decodeWord_unclassified0000 (bits : BitVec 12) :
    decodeWord (encodeWord (.unclassified0000 bits)) = .unclassified0000 bits := by
  have number : (encodeWord (.unclassified0000 bits)).toNat = 0 * 2 ^ 12 + bits.toNat :=
    toNat_ofNat_append 0 (by decide) bits
  have opcode : ((encodeWord (.unclassified0000 bits)).extractLsb' 12 4).toNat = 0 := by rw [opcode_toNat]; omega
  rw [decodeWord_of_neither (by omega) (by omega), decodeUnclassified, opcode]
  exact congrArg Instr.unclassified0000 BitVec.extractLsb'_append_eq_right

theorem decodeWord_unclassified1400 (bits : BitVec 10) :
    decodeWord (encodeWord (.unclassified1400 bits)) = .unclassified1400 bits := by
  have number : (encodeWord (.unclassified1400 bits)).toNat = 5 * 2 ^ 10 + bits.toNat :=
    toNat_ofNat_append 5 (by decide) bits
  have opcode : ((encodeWord (.unclassified1400 bits)).extractLsb' 12 4).toNat = 1 := by rw [opcode_toNat]; omega
  have bit11 : ¬ (encodeWord (.unclassified1400 bits)).getLsbD 11 = true := by rw [bit11_iff]; omega
  rw [decodeWord_of_neither (by omega) (by omega), decodeUnclassified, opcode]
  exact (if_neg bit11).trans (congrArg Instr.unclassified1400 BitVec.extractLsb'_append_eq_right)

theorem decodeWord_unclassified1800 (bits : BitVec 11) :
    decodeWord (encodeWord (.unclassified1800 bits)) = .unclassified1800 bits := by
  have number : (encodeWord (.unclassified1800 bits)).toNat = 3 * 2 ^ 11 + bits.toNat :=
    toNat_ofNat_append 3 (by decide) bits
  have opcode : ((encodeWord (.unclassified1800 bits)).extractLsb' 12 4).toNat = 1 := by rw [opcode_toNat]; omega
  have bit11 : (encodeWord (.unclassified1800 bits)).getLsbD 11 = true := by rw [bit11_iff]; omega
  rw [decodeWord_of_neither (by omega) (by omega), decodeUnclassified, opcode]
  exact (if_pos bit11).trans (congrArg Instr.unclassified1800 BitVec.extractLsb'_append_eq_right)

theorem decodeWord_unclassified2000 (bits : BitVec 13) :
    decodeWord (encodeWord (.unclassified2000 bits)) = .unclassified2000 bits := by
  have number : (encodeWord (.unclassified2000 bits)).toNat = 1 * 2 ^ 13 + bits.toNat :=
    toNat_ofNat_append 1 (by decide) bits
  have opcode : ((encodeWord (.unclassified2000 bits)).extractLsb' 12 4).toNat = 2 ∨
      ((encodeWord (.unclassified2000 bits)).extractLsb' 12 4).toNat = 3 := by rw [opcode_toNat]; omega
  rw [decodeWord_of_neither (by omega) (by omega), decodeUnclassified]
  obtain h | h := opcode
  all_goals
    rw [h]
    exact congrArg Instr.unclassified2000 BitVec.extractLsb'_append_eq_right

theorem decodeWord_unaryUop6 (bits : BitVec 7) : decodeWord (encodeWord (.unaryUop6 bits)) = .unaryUop6 bits := by
  have number : (encodeWord (.unaryUop6 bits)).toNat = 38 * 2 ^ 7 + bits.toNat :=
    toNat_ofNat_append 38 (by decide) bits
  have uop : ((encodeWord (.unaryUop6 bits)).extractLsb' 7 3).toNat = 6 := by rw [uop_toNat]; omega
  rw [decodeWord_of_tag ((unaryTag_iff _).2 (by omega)), decodeUnary, uop]
  exact congrArg Instr.unaryUop6 BitVec.extractLsb'_append_eq_right

theorem decodeWord_unaryUop7 (bits : BitVec 7) : decodeWord (encodeWord (.unaryUop7 bits)) = .unaryUop7 bits := by
  have number : (encodeWord (.unaryUop7 bits)).toNat = 39 * 2 ^ 7 + bits.toNat :=
    toNat_ofNat_append 39 (by decide) bits
  have uop : ((encodeWord (.unaryUop7 bits)).extractLsb' 7 3).toNat = 7 := by rw [uop_toNat]; omega
  rw [decodeWord_of_tag ((unaryTag_iff _).2 (by omega)), decodeUnary, uop]
  exact congrArg Instr.unaryUop7 BitVec.extractLsb'_append_eq_right

theorem decodeWord_binaryOpAB (bits : BitVec 13) : decodeWord (encodeWord (.binaryOpAB bits)) = .binaryOpAB bits := by
  have number : (encodeWord (.binaryOpAB bits)).toNat = 5 * 2 ^ 13 + bits.toNat :=
    toNat_ofNat_append 5 (by decide) bits
  have opcode : ((encodeWord (.binaryOpAB bits)).extractLsb' 12 4).toNat = 10 ∨
      ((encodeWord (.binaryOpAB bits)).extractLsb' 12 4).toNat = 11 := by rw [opcode_toNat]; omega
  rw [decodeWord_of_opcode (by omega), decodeBinary]
  obtain h | h := opcode
  all_goals
    rw [h]
    exact congrArg Instr.binaryOpAB BitVec.extractLsb'_append_eq_right

theorem decodeWord_binaryOpCF (bits : BitVec 14) : decodeWord (encodeWord (.binaryOpCF bits)) = .binaryOpCF bits := by
  have number : (encodeWord (.binaryOpCF bits)).toNat = 3 * 2 ^ 14 + bits.toNat :=
    toNat_ofNat_append 3 (by decide) bits
  have bound := bits.isLt
  have opcode : ((encodeWord (.binaryOpCF bits)).extractLsb' 12 4).toNat ∈ [12, 13, 14, 15] := by
    simp only [opcode_toNat, List.mem_cons, List.not_mem_nil]
    omega
  rw [decodeWord_of_opcode (by rw [opcode_toNat]; omega), decodeBinary]
  simp only [List.mem_cons, List.not_mem_nil, or_false] at opcode
  obtain h | h | h | h := opcode
  all_goals
    rw [h]
    exact congrArg Instr.binaryOpCF BitVec.extractLsb'_append_eq_right

/-- The decoder inverts the encoder at every well-formed instruction (30_encoding.md R52-R60, R71). -/
theorem decodeWord_encodeWord {i : Instr} (h : i.WellFormed) : decodeWord (encodeWord i) = i := by
  cases i with
  | mov | add | addc | subc | sub | cmp =>
    rw [encodeWord, decodeWord_binaryWord (by decide), decodeBinary, (fields_binaryWord ..).1]
    exact binaryFields_binaryWord ..
  | rrc | rra | push | swpbByte | sxtByte | callByte =>
    rw [encodeWord, decodeWord_unaryWord, decodeUnary, (fields_unaryWord ..).2.1]
    exact unaryFields_unaryWord ..
  | swpb bw | sxt bw | call bw =>
    cases bw with
    | byte => cases h
    | word =>
      rw [encodeWord, decodeWord_unaryWord, decodeUnary, (fields_unaryWord ..).2.1]
      exact unaryFields_unaryWord ..
  | unclassified0000 => exact decodeWord_unclassified0000 _
  | unclassified1400 => exact decodeWord_unclassified1400 _
  | unclassified1800 => exact decodeWord_unclassified1800 _
  | unclassified2000 => exact decodeWord_unclassified2000 _
  | unaryUop6 => exact decodeWord_unaryUop6 _
  | unaryUop7 => exact decodeWord_unaryUop7 _
  | binaryOpAB => exact decodeWord_binaryOpAB _
  | binaryOpCF => exact decodeWord_binaryOpCF _

/-! ## Well-formedness of what is decoded (30_encoding.md R58, R62) -/

theorem wellFormed_wordOnlyFields {mk : Width → Mode → Reg → Instr} {byteForm : Mode → Reg → Instr}
    (hmk : ∀ as reg, (mk .word as reg).WellFormed) (hbyte : ∀ as reg, (byteForm as reg).WellFormed) (w : Word) :
    (wordOnlyFields mk byteForm w).WellFormed := by
  rw [wordOnlyFields, unaryFields]
  cases Width.ofBits (w.extractLsb' 6 1) with
  | word => exact hmk ..
  | byte => exact hbyte ..

/-- Every word decodes to a well-formed instruction: a byte form of SWPB, SXT or CALL decodes to its fault row. -/
theorem wellFormed_decodeWord (w : Word) : (decodeWord w).WellFormed := by
  unfold decodeWord
  split
  next =>
    unfold decodeBinary
    split <;> rfl
  next =>
    split
    next =>
      unfold decodeUnary
      split
      case h_2 | h_4 | h_6 => exact wellFormed_wordOnlyFields (fun _ _ => rfl) (fun _ _ => rfl) w
      all_goals rfl
    next =>
      unfold decodeUnclassified
      split
      on_goal 2 => split
      all_goals rfl

/-- Settles O1: the word decodes back by its row of the table, and its two bytes are the word, low byte first. -/
theorem decodeInvertsEncode : Obligations.DecodeInvertsEncode := fun i h =>
  ⟨decodeWord_encodeWord h, fun rest => by
    change Except.ok (decodeWord (wordOfBytes (lowByte (encodeWord i)) (highByte (encodeWord i))), rest) = _
    rw [Machine.wordOfBytes_low_high, decodeWord_encodeWord h]⟩

/-- Settles O2: no word is left without a well-formed instruction, and none loses a bit. -/
theorem encodeInvertsDecode : Obligations.EncodeInvertsDecode := fun w =>
  ⟨wellFormed_decodeWord w, encodeWord_decodeWord w⟩

/-- Settles O4: the decoder, run on the eight words. -/
theorem writtenOutWordsDecode : Obligations.WrittenOutWordsDecode := by
  unfold Obligations.WrittenOutWordsDecode
  decide

end Sys2Proof

namespace Sys2Proof.Machine

open Sys2Proof Sys2Proof.Safety

/-! ## The step (00_scope.md R3, R8) -/

/-- Settles O5: the two bytes at the PC are its little-endian word. -/
theorem stepRunsTheDecodedInstruction : Obligations.StepRunsTheDecodedInstruction := by
  intro s i hal hdec
  have decoded : decodeWord (s.wordAt s.pc) = i := by
    change Except.ok (decodeWord (s.wordAt s.pc), []) = Except.ok (i, []) at hdec
    cases hdec
    rfl
  rw [step_of_aligned hal, decoded]

theorem step_of_odd {s : State} (h : s.pc.getLsbD 0 = true) : step s = .fault (.misalignedFetch s.pc) := by
  rw [step, fetchInstr, fetchWord_eq_error.2 ⟨h, rfl⟩]

/-- Settles O6: the fetch faults before it reads. -/
theorem oddPcFaults : Obligations.OddPcFaults := fun _ => step_of_odd

/-- Every step is a misaligned fetch or one instruction (00_scope.md R3). -/
theorem step_cases (s : State) :
    (s.pc.getLsbD 0 = true ∧ step s = .fault (.misalignedFetch s.pc)) ∨
      (Aligned s ∧ step s = exec (decodeWord (s.wordAt s.pc)) s) := by
  cases h : s.pc.getLsbD 0 with
  | true => exact .inl ⟨rfl, step_of_odd h⟩
  | false => exact .inr ⟨h, step_of_aligned h⟩

/-- Settles O8: storing a word leaves the PC, the fetch reads that word back, and decoding inverts encoding. -/
theorem fetchSeesTheStoredWord : Obligations.FetchSeesTheStoredWord := by
  intro s i hm hal hwf
  have fetched : (s.setWord s.pc (encodeWord i)).wordAt s.pc = encodeWord i := wordAt_setWord_same hm
  rw [step_of_aligned (s := s.setWord s.pc (encodeWord i)) hal]
  change exec (decodeWord ((s.setWord s.pc (encodeWord i)).wordAt s.pc)) _ = _
  rw [fetched, decodeWord_encodeWord hwf]

end Sys2Proof.Machine
end

section
/-!
PROOFS. The operand steps against the tables of Safety.lean (40_operand_resolver.md R76-R95): when the resolver, the
reads and writes of a Location and the two templates answer, what they answer, and which fault they raise otherwise.
-/

namespace Sys2Proof.Machine

open Sys2Proof Sys2Proof.Safety

/-! ## The resolver (40_operand_resolver.md R95, R90) -/

theorem fetchWord_of_odd {origin : Word} {s : State} (h : ¬ Aligned s) :
    fetchWord origin s = .error (.misalignedFetch origin) :=
  fetchWord_eq_error.2 ⟨Bool.eq_true_of_not_eq_false h, rfl⟩

theorem resolveMode_indexed_of_odd {site : Site} {reg : Reg} {s : State} (h : ¬ Aligned s) :
    resolveMode site .indexed reg s = .error (.misalignedFetch site.pc) := by
  rw [resolveMode, fetchWord_of_odd h, error_bind]

/-- The base register of X(Rn) is read after the extension word, which always marks the PC (40_operand_resolver.md
R77). -/
theorem resolveMode_indexed_of_unwritten {site : Site} {reg : Reg} {s : State} (ha : Aligned s) (h0 : reg ≠ 0)
    (hw : s.isWritten reg = false) :
    resolveMode site .indexed reg s = .error (.uninitializedRegister site reg) := by
  have unwritten : (s.setReg 0 (s.pc + 2)).isWritten reg = false := by simpa [h0] using hw
  exact bind_eq_error.2 (.inr ⟨_, fetchWord_of_aligned ha,
    bind_eq_error.2 (.inl (readReg_eq_error.2 ⟨unwritten, rfl⟩))⟩)

/-- The base of a source operand is the operand's own register, in a mode that reads it. -/
theorem srcBase_eq_some {as : Mode} {reg r : Reg} :
    srcBase as reg = some r ↔ r = reg ∧ reg ≠ 2 ∧ reg ≠ 3 ∧ as ≠ .register := by
  by_cases h : reg = 3 ∨ reg = 2
  · simp only [srcBase, if_pos h]
    grind
  · cases as <;> simp only [srcBase, if_neg h] <;> grind

theorem constantOf_eq_none {as : Mode} {reg : Reg} (h2 : reg ≠ 2) (h3 : reg ≠ 3) : constantOf reg as = none := by
  simp [constantOf, h2, h3]

/-- A source operand of a register that is neither R2 nor R3 is resolved by its mode alone. -/
theorem resolve_src_of_ordinary {as : Mode} {reg : Reg} (h2 : reg ≠ 2) (h3 : reg ≠ 3) (site : Site) (s : State) :
    resolve site .src as reg s = resolveMode site as reg s :=
  resolve_src_of_mode (constantOf_eq_none h2 h3) (fun h => h2 h.1) site s

/-- A source operand whose base register is written and whose extension word can be fetched: a constant, an absolute
address, or one of the four plain modes (40_operand_resolver.md R95). -/
theorem resolve_src_of_ready {site : Site} {as : Mode} {reg : Reg} {s : State} (hb : BaseWritten s (srcBase as reg))
    (ha : as = .indexed → reg ≠ 3 → Aligned s) :
    resolve site .src as reg s = .ok (srcLocation s as reg, afterSrc s as reg) := by
  by_cases h3 : reg = 3
  · subst h3
    cases as <;> exact resolve_src_of_constant rfl site s
  by_cases h2 : reg = 2
  · subst h2
    cases as with
    | register => rfl
    | indexed =>
      rw [resolve_src_absolute, fetchWord_of_aligned (ha rfl h3)]
      rfl
    | indirect | postInc => exact resolve_src_of_constant rfl site s
  have hw : as ≠ .register → s.isWritten reg = true := fun hm => hb reg (srcBase_eq_some.2 ⟨rfl, h2, h3, hm⟩)
  rw [resolve_src_of_ordinary h2 h3]
  simp only [srcLocation, afterSrc, if_neg h3, if_neg h2, if_neg (not_or.2 ⟨h3, h2⟩)]
  cases as with
  | register => rfl
  | indexed => exact resolveMode_indexed_eq_ok.2 ⟨ha rfl h3, by simp [hw nofun], by simp, rfl⟩
  | indirect => exact resolveMode_indirect_eq_ok.2 ⟨hw nofun, rfl, rfl⟩
  | postInc => exact resolveMode_postInc_eq_ok.2 ⟨hw nofun, rfl, rfl⟩

/-- An extension word at an odd PC faults before the base register is read (40_operand_resolver.md R93). -/
theorem resolve_src_of_odd {site : Site} {reg : Reg} {s : State} (h3 : reg ≠ 3) (ha : ¬ Aligned s) :
    resolve site .src .indexed reg s = .error (.misalignedFetch site.pc) := by
  by_cases h2 : reg = 2
  · subst h2
    rw [resolve_src_absolute, fetchWord_of_odd ha, error_bind]
  · rw [resolve_src_of_ordinary h2 h3, resolveMode_indexed_of_odd ha]

theorem resolve_src_of_unwritten {site : Site} {as : Mode} {reg : Reg} {s : State} (hb : srcBase as reg = some reg)
    (ha : as = .indexed → Aligned s) (h0 : reg ≠ 0) (hw : s.isWritten reg = false) :
    resolve site .src as reg s = .error (.uninitializedRegister site reg) := by
  obtain ⟨-, h2, h3, hm⟩ := srcBase_eq_some.1 hb
  have read : readReg site reg s = .error (.uninitializedRegister site reg) := readReg_eq_error.2 ⟨hw, rfl⟩
  rw [resolve_src_of_ordinary h2 h3]
  cases as with
  | register => exact absurd rfl hm
  | indexed => exact resolveMode_indexed_of_unwritten (ha rfl) h0 hw
  | indirect | postInc => rw [resolveMode, read, error_bind]

/-- All that resolving a source operand can do, once the PC is marked. -/
theorem resolve_src_cases (site : Site) (as : Mode) (reg : Reg) {s : State} (h0 : s.isWritten 0 = true) :
    (BaseWritten s (srcBase as reg) ∧ (as = .indexed → reg ≠ 3 → Aligned s) ∧
        resolve site .src as reg s = .ok (srcLocation s as reg, afterSrc s as reg)) ∨
      (¬ Aligned s ∧ as = .indexed ∧ reg ≠ 3 ∧ resolve site .src as reg s = .error (.misalignedFetch site.pc)) ∨
      (srcBase as reg = some reg ∧ s.isWritten reg = false ∧
        resolve site .src as reg s = .error (.uninitializedRegister site reg)) := by
  by_cases ha : as = .indexed → reg ≠ 3 → Aligned s
  · by_cases hb : BaseWritten s (srcBase as reg)
    · exact .inl ⟨hb, ha, resolve_src_of_ready hb ha⟩
    · obtain ⟨r, hr, hw⟩ : ∃ r, srcBase as reg = some r ∧ s.isWritten r = false := by
        simpa [BaseWritten] using hb
      obtain ⟨rfl, -, h3, -⟩ := srcBase_eq_some.1 hr
      have hr0 : r ≠ 0 := by
        rintro rfl
        simp [h0] at hw
      exact .inr (.inr ⟨hr, hw, resolve_src_of_unwritten hr (fun e => ha e h3) hr0 hw⟩)
  · obtain ⟨rfl, h3, ha⟩ : as = .indexed ∧ reg ≠ 3 ∧ ¬ Aligned s := by simpa only [Classical.not_imp] using ha
    exact .inr (.inl ⟨ha, rfl, h3, resolve_src_of_odd h3 ha⟩)

/-- A destination operand is never substituted (40_operand_resolver.md R90). -/
theorem resolve_dst_of_ready {site : Site} {ad : DstMode} {reg : Reg} {s : State} (hb : BaseWritten s (dstBase ad reg))
    (ha : ad = .indexed → Aligned s) :
    resolve site .dst (dstMode ad) reg s = .ok (dstLocation s ad reg, afterDst s ad) := by
  cases ad with
  | register => rfl
  | indexed => exact resolveMode_indexed_eq_ok.2 ⟨ha rfl, by simp [hb reg rfl], by simp [dstLocation], rfl⟩

theorem resolve_dst_of_unwritten {site : Site} {reg : Reg} {s : State} (ha : Aligned s) (h0 : reg ≠ 0)
    (hw : s.isWritten reg = false) :
    resolve site .dst (dstMode .indexed) reg s = .error (.uninitializedRegister site reg) :=
  resolveMode_indexed_of_unwritten ha h0 hw

/-- All that resolving a destination operand can do, once the PC is marked. -/
theorem resolve_dst_cases (site : Site) (ad : DstMode) (reg : Reg) {s : State} (h0 : s.isWritten 0 = true) :
    (BaseWritten s (dstBase ad reg) ∧
        resolve site .dst (dstMode ad) reg s = .ok (dstLocation s ad reg, afterDst s ad)) ∨
      (¬ Aligned s ∧ resolve site .dst (dstMode ad) reg s = .error (.misalignedFetch site.pc)) ∨
      (s.isWritten reg = false ∧
        resolve site .dst (dstMode ad) reg s = .error (.uninitializedRegister site reg)) := by
  cases ad with
  | register => exact .inl ⟨nofun, rfl⟩
  | indexed =>
    by_cases ha : Aligned s
    · cases hw : s.isWritten reg with
      | true =>
        have hb : BaseWritten s (dstBase .indexed reg) := by
          rintro r ⟨⟩
          exact hw
        exact .inl ⟨hb, resolve_dst_of_ready hb fun _ => ha⟩
      | false =>
        have hr0 : reg ≠ 0 := by
          rintro rfl
          simp [h0] at hw
        exact .inr (.inr ⟨rfl, resolve_dst_of_unwritten ha hr0 hw⟩)
    · exact .inr (.inl ⟨ha, resolveMode_indexed_of_odd ha⟩)

/-- Settles O21: each source mode and register gives its line of the table. -/
theorem sourceOperandsFollowTheTable : Obligations.SourceOperandsFollowTheTable := fun _ _ _ _ =>
  resolve_src_of_ready

/-- Settles O22: a destination is its register or an indexed address, whatever the register. -/
theorem destinationsAreNeverSubstituted : Obligations.DestinationsAreNeverSubstituted := fun _ _ _ _ =>
  resolve_dst_of_ready

/-- Settles O25: the table's line for mode 3 of an ordinary register, and what a register write leaves. -/
theorem postIncrementIsTwoForPcElseOne : Obligations.PostIncrementIsTwoForPcElseOne := by
  intro site reg s h2 h3 hw
  refine ⟨s.setReg reg (s.reg reg + postIncrement reg), ?_, ?pc, ?other, by simp, fun q hq => by simp [hq], rfl, rfl⟩
  · rw [resolve_src_of_ordinary h2 h3, resolveMode_postInc_eq_ok]
    exact ⟨hw, rfl, rfl⟩
  case pc =>
    rintro rfl
    simp [postIncrement]
  case other =>
    intro h0
    simp [postIncrement, h0]

/-! ## Locations (40_operand_resolver.md R86-R89) -/

theorem readLoc_eq_ok {site : Site} {l : Location} {w : Width} {s : State} {v : Word} :
    readLoc site l w s = .ok v ↔ Readable s l w ∧ v = valueAt s l w := by
  cases l with
  | reg r =>
    have value : valueAt s (.reg r) w = s.reg r &&& mask w := by
      cases w with
      | word => exact (mask_word _).symm
      | byte => rfl
    simp only [readLoc, bind_eq_ok, readReg_eq_ok, pure_eq_ok, Readable, value]
    constructor
    · rintro ⟨_, ⟨hw, rfl⟩, ⟨⟩⟩
      exact ⟨hw, rfl⟩
    · rintro ⟨hw, rfl⟩
      exact ⟨_, ⟨hw, rfl⟩, rfl⟩
  | mem a => cases w <;> simp [readLoc, loadMem_eq_ok, Readable, valueAt]
  | const c =>
    cases w with
    | word => simp [readLoc, Readable, valueAt, eq_comm]
    | byte => simp [readLoc, Readable, valueAt, mask, eq_comm]

theorem readLoc_eq_error {site : Site} {l : Location} {w : Width} {s : State} {f : Fault} :
    readLoc site l w s = .error f ↔
      (∃ r, l = .reg r ∧ s.isWritten r = false ∧ f = .uninitializedRegister site r) ∨
        (l = .mem 0xFFFF ∧ w = .word ∧ f = .wordAccessAtTop site 0xFFFF) := by
  cases l with
  | reg r => simp [readLoc, bind_eq_error, readReg_eq_error]
  | mem a =>
    simp only [readLoc, loadMem_eq_error, reduceCtorEq, Location.mem.injEq, false_and, exists_false, false_or]
    grind
  | const c => simp [readLoc]

theorem writeLoc_eq_ok {site : Site} {l : Location} {w : Width} {v : Word} {s t : State} :
    writeLoc site l w v s = .ok t ↔ Writable l w ∧ t = putAt s l w v := by
  cases l with
  | reg r =>
    have put : putAt s (.reg r) w v = s.setReg r (narrow w v) := by
      cases w with
      | word => rfl
      | byte => exact congrArg (s.setReg r) (and_mask_eq_narrow .byte v)
    rw [put, writeLoc_reg]
    simp [Writable, eq_comm]
  | mem a => cases w <;> simp [writeLoc, storeMem_eq_ok, Writable, putAt]
  | const c => simp [writeLoc, Writable]

theorem writeLoc_eq_error {site : Site} {l : Location} {w : Width} {v : Word} {s : State} {f : Fault} :
    writeLoc site l w v s = .error f ↔
      (l = .mem 0xFFFF ∧ w = .word ∧ f = .wordAccessAtTop site 0xFFFF) ∨
        (∃ c, l = .const c) ∧ f = .constantDestination site := by
  cases l with
  | reg r => simp [writeLoc]
  | mem a =>
    simp only [writeLoc, storeMem_eq_error, reduceCtorEq, Location.mem.injEq, exists_false, false_and, or_false]
    grind
  | const c => simp [writeLoc, eq_comm]

/-- Settles O27: a byte store touches one byte, a word store two, and a word store at the top is refused. -/
theorem memoryWriteTouchesItsWidth : Obligations.MemoryWriteTouchesItsWidth := by
  intro site a v s hm
  refine ⟨⟨s.setByte a (lowByte v), storeMem_byte site a v s, byteAt_setByte_same hm,
    byteAt_setByte_ne (word_ne_succ a).symm⟩, fun ha => ⟨s.setWord a v, storeMem_word ha, byteAt_setWord_low hm,
    byteAt_setWord_high hm⟩, ?_⟩
  rintro rfl
  exact writeLoc_eq_error.2 (.inl ⟨rfl, rfl, rfl⟩)

/-! ## What the tables leave unchanged -/

section
variable {s : State} {as : Mode} {ad : DstMode} {reg q : Reg}

theorem afterSrc_cases (s : State) (as : Mode) (reg : Reg) :
    afterSrc s as reg = s ∨ (as = .indexed ∧ reg ≠ 3 ∧ afterSrc s as reg = s.setReg 0 (s.reg 0 + 2)) ∨
      (as = .postInc ∧ reg ≠ 2 ∧ reg ≠ 3 ∧
        afterSrc s as reg = s.setReg reg (s.reg reg + if reg = 0 then 2 else 1)) := by
  cases as with
  | register | indirect => exact .inl rfl
  | indexed => simp only [afterSrc, pc_eq]; grind
  | postInc => simp only [afterSrc]; grind

theorem afterDst_cases (s : State) (ad : DstMode) :
    (ad = .register ∧ afterDst s ad = s) ∨ (ad = .indexed ∧ afterDst s ad = s.setReg 0 (s.reg 0 + 2)) := by
  cases ad with
  | register => exact .inl ⟨rfl, rfl⟩
  | indexed => exact .inr ⟨rfl, rfl⟩

@[simp] theorem mem_afterSrc : (afterSrc s as reg).mem = s.mem := by
  obtain h | ⟨-, -, h⟩ | ⟨-, -, -, h⟩ := afterSrc_cases s as reg <;> rw [h] <;> rfl

@[simp] theorem draws_afterSrc : (afterSrc s as reg).draws = s.draws := by
  obtain h | ⟨-, -, h⟩ | ⟨-, -, -, h⟩ := afterSrc_cases s as reg <;> rw [h] <;> rfl

@[simp] theorem mem_afterDst : (afterDst s ad).mem = s.mem := by cases ad <;> rfl
@[simp] theorem draws_afterDst : (afterDst s ad).draws = s.draws := by cases ad <;> rfl

theorem isWritten_afterSrc (h : s.isWritten q = true) : (afterSrc s as reg).isWritten q = true := by
  obtain e | ⟨-, -, e⟩ | ⟨-, -, -, e⟩ := afterSrc_cases s as reg <;> rw [e] <;> simp [h]

theorem isWritten_afterDst (h : s.isWritten q = true) : (afterDst s ad).isWritten q = true := by
  obtain ⟨-, e⟩ | ⟨-, e⟩ := afterDst_cases s ad <;> rw [e] <;> simp [h]

/-- A source operand moves no register but the PC and the one of mode 3. -/
theorem afterSrc_other (h0 : q ≠ 0) (h : ¬ (as = .postInc ∧ q = reg ∧ q ≠ 2 ∧ q ≠ 3)) :
    (afterSrc s as reg).reg q = s.reg q ∧ (afterSrc s as reg).isWritten q = s.isWritten q := by
  obtain e | ⟨-, -, e⟩ | ⟨rfl, h2, h3, e⟩ := afterSrc_cases s as reg
  · simp [e]
  · simp [e, h0]
  · have : q ≠ reg := by
      rintro rfl
      exact h ⟨rfl, rfl, h2, h3⟩
    simp [e, this]

theorem afterDst_other (h0 : q ≠ 0) :
    (afterDst s ad).reg q = s.reg q ∧ (afterDst s ad).isWritten q = s.isWritten q := by
  obtain ⟨-, e⟩ | ⟨-, e⟩ := afterDst_cases s ad <;> simp [e, h0]

theorem afterSrc_postInc (h0 : reg ≠ 0) (h2 : reg ≠ 2) (h3 : reg ≠ 3) :
    (afterSrc s .postInc reg).reg reg = s.reg reg + 1 := by
  simp [afterSrc, h0, h2, h3]

/-- A source operand moves the PC past its extension word (30_encoding.md R64). -/
theorem pc_afterSrc : (afterSrc s as reg).reg 0 = s.reg 0 + BitVec.ofNat 16 (2 * srcExtWords as reg) := by
  cases as with
  | register | indirect => simp [afterSrc, srcExtWords]
  | indexed => by_cases h : reg = 3 <;> simp [afterSrc, srcExtWords, h]
  | postInc =>
    by_cases h : reg = 0
    · simp [afterSrc, srcExtWords, h]
    · simp only [afterSrc, srcExtWords, if_neg h]
      split <;> simp [Ne.symm h]

theorem pc_afterDst : (afterDst s ad).reg 0 = s.reg 0 + BitVec.ofNat 16 (2 * dstExtWords ad) := by
  cases ad <;> simp [afterDst, dstExtWords]

/-- Moving by words keeps the PC even. -/
theorem getLsbD_zero_add_even (v : Word) (n : Nat) :
    (v + BitVec.ofNat 16 (2 * n)).getLsbD 0 = v.getLsbD 0 := by
  have h (x : Word) : x.getLsbD 0 = decide (x.toNat % 2 = 1) := by simp [BitVec.getLsbD, Nat.testBit_zero]
  rw [h, h, BitVec.toNat_add, BitVec.toNat_ofNat]
  congr 2
  omega

theorem aligned_afterSrc : Aligned (afterSrc s as reg) ↔ Aligned s := by
  rw [Aligned, Aligned, pc_eq, pc_eq, pc_afterSrc, getLsbD_zero_add_even]

theorem aligned_afterDst : Aligned (afterDst s ad) ↔ Aligned s := by
  rw [Aligned, Aligned, pc_eq, pc_eq, pc_afterDst, getLsbD_zero_add_even]

theorem aligned_past : Aligned (s.setReg 0 (s.pc + 2)) ↔ Aligned s := by
  have moved : (s.setReg 0 (s.reg 0 + 2)).reg 0 = s.reg 0 + BitVec.ofNat 16 (2 * 1) := by simp
  rw [Aligned, Aligned, pc_eq, pc_eq, moved, getLsbD_zero_add_even]

end

/-! ## The operand steps of the two templates (42_binary.md R106, 43_unary.md R116) -/

/-- The faults of an instruction with a handler, each with what it says of the state before it (60_exceptions.md R133,
R135). -/
inductive FaultCause (site : Site) (s : State) : Fault → Prop
  | misalignedFetch (h : ¬ Aligned s) : FaultCause site s (.misalignedFetch site.pc)
  | uninitializedRegister (r : Reg) (h : s.isWritten r = false) : FaultCause site s (.uninitializedRegister site r)
  | wordAccessAtTop : FaultCause site s (.wordAccessAtTop site 0xFFFF)
  | constantDestination : FaultCause site s (.constantDestination site)

/-- A cause seen after some steps of an instruction stands in the state before them, if they clear no mark and keep
the PC's parity. -/
theorem FaultCause.before {site : Site} {s t : State} {f : Fault} (h : FaultCause site t f)
    (ha : Aligned s → Aligned t) (hm : ∀ r, s.isWritten r = true → t.isWritten r = true) : FaultCause site s f := by
  cases h with
  | misalignedFetch h => exact .misalignedFetch fun e => h (ha e)
  | uninitializedRegister r h =>
    refine .uninitializedRegister r (Bool.eq_false_of_not_eq_true fun e => ?_)
    simp [hm r e] at h
  | wordAccessAtTop => exact .wordAccessAtTop
  | constantDestination => exact .constantDestination

theorem faultCause_readLoc {site : Site} {l : Location} {w : Width} {s : State} {f : Fault}
    (h : readLoc site l w s = .error f) : FaultCause site s f := by
  obtain ⟨r, -, hw, rfl⟩ | ⟨-, -, rfl⟩ := readLoc_eq_error.1 h
  · exact .uninitializedRegister r hw
  · exact .wordAccessAtTop

theorem faultCause_writeLoc {site : Site} {l : Location} {w : Width} {v : Word} {s : State} {f : Fault}
    (h : writeLoc site l w v s = .error f) : FaultCause site s f := by
  obtain ⟨-, -, rfl⟩ | ⟨-, rfl⟩ := writeLoc_eq_error.1 h
  · exact .wordAccessAtTop
  · exact .constantDestination

/-- The state just past the instruction word, where every operand is resolved (42_binary.md R106). -/
abbrev past (s : State) : State := s.setReg 0 (s.pc + 2)

theorem isWritten_past {s : State} {r : Reg} (h : s.isWritten r = true) : (past s).isWritten r = true := by
  simp [h]

theorem pc_written_past (s : State) : (past s).isWritten 0 = true := by simp

section
variable {site : Site} {as : Mode} {bw : Width} {reg : Reg} {s : State}

/-- A source operand that is ready resolves and reads by the tables. -/
theorem resolve_src_past_of_ready (h : SourceReady as bw reg s) :
    resolve site .src as reg (past s) = .ok (srcLocation (past s) as reg, afterSrc (past s) as reg) :=
  resolve_src_of_ready h.base fun _ _ => aligned_past.2 h.aligned

theorem unaryOperand_of_ready (h : SourceReady as bw reg s) :
    unaryOperand site as bw reg s = .ok (unaryTable as bw reg s) :=
  unaryOperand_eq_ok.2 ⟨resolve_src_past_of_ready h, readLoc_eq_ok.2 ⟨h.readable, rfl⟩⟩

/-- What resolves is what the table says, and its base register was written. -/
theorem resolve_src_past_eq_ok {l : Location} {t : State} (h : resolve site .src as reg (past s) = .ok (l, t)) :
    BaseWritten (past s) (srcBase as reg) ∧ l = srcLocation (past s) as reg ∧ t = afterSrc (past s) as reg := by
  obtain ⟨hb, -, e⟩ | ⟨-, -, -, e⟩ | ⟨-, -, e⟩ := resolve_src_cases site as reg (pc_written_past s) <;>
    cases e.symm.trans h
  exact ⟨hb, rfl, rfl⟩

theorem faultCause_resolve_src {f : Fault} (h : resolve site .src as reg (past s) = .error f) :
    FaultCause site s f := by
  obtain ⟨-, -, e⟩ | ⟨ha, -, -, e⟩ | ⟨-, hw, e⟩ := resolve_src_cases site as reg (pc_written_past s) <;>
    cases e.symm.trans h
  · exact .misalignedFetch fun e => ha (aligned_past.2 e)
  · exact (FaultCause.uninitializedRegister reg hw).before aligned_past.2 fun _ => isWritten_past

/-- Whatever a unary instruction's operand steps answer is the table's line. -/
theorem unaryOperand_eq_table {o : Operand} (h : unaryOperand site as bw reg s = .ok o) :
    o = unaryTable as bw reg s ∧ (Aligned s → SourceReady as bw reg s) := by
  obtain ⟨v, l, t⟩ := o
  obtain ⟨hr, hv⟩ := unaryOperand_eq_ok.1 h
  obtain ⟨hb, rfl, rfl⟩ := resolve_src_past_eq_ok (site := site) hr
  obtain ⟨readable, value⟩ := readLoc_eq_ok.1 hv
  exact ⟨congrArg (Operand.mk · _ _) value, fun ha => ⟨ha, hb, readable⟩⟩

theorem faultCause_afterSrc {f : Fault} (h : FaultCause site (afterSrc (past s) as reg) f) : FaultCause site s f :=
  h.before (fun ha => aligned_afterSrc.2 (aligned_past.2 ha)) fun _ hr => isWritten_afterSrc (isWritten_past hr)

theorem faultCause_unaryOperand {f : Fault} (h : unaryOperand site as bw reg s = .error f) : FaultCause site s f := by
  obtain h | ⟨⟨l, t⟩, hr, h⟩ := bind_eq_error.1 h
  · exact faultCause_resolve_src h
  · obtain ⟨-, rfl, rfl⟩ := resolve_src_past_eq_ok hr
    obtain h | ⟨_, -, ⟨⟩⟩ := bind_eq_error.1 h
    exact faultCause_afterSrc (faultCause_readLoc h)

end

section
variable {site : Site} {sreg dreg : Reg} {as : Mode} {bw : Width} {ad : DstMode} {s : State}

/-- The base of a destination may be looked up before or after its own extension word, which marks only the PC. -/
theorem baseWritten_afterDst_iff {t : State} (h0 : t.isWritten 0 = true) :
    BaseWritten (afterDst t ad) (dstBase ad dreg) ↔ BaseWritten t (dstBase ad dreg) := by
  have same (r : Reg) : (afterDst t ad).isWritten r = t.isWritten r := by
    by_cases hr : r = 0
    · rw [hr, h0, isWritten_afterDst h0]
    · exact (afterDst_other hr).2
  simp only [BaseWritten, same]

theorem pc_written_afterSrc : (afterSrc (past s) as sreg).isWritten 0 = true := isWritten_afterSrc (pc_written_past s)

theorem resolve_dst_past_of_ready (h : BinaryReady sreg as bw ad dreg s) :
    resolve site .dst (dstMode ad) dreg (afterSrc (past s) as sreg) =
      .ok (dstLocation (afterSrc (past s) as sreg) ad dreg, afterDst (afterSrc (past s) as sreg) ad) :=
  resolve_dst_of_ready ((baseWritten_afterDst_iff pc_written_afterSrc).1 h.dstBase)
    fun _ => aligned_afterSrc.2 (aligned_past.2 h.source.aligned)

theorem binaryOperands_of_ready (h : BinaryReady sreg as bw ad dreg s) :
    binaryOperands site sreg as bw ad dreg s = .ok (binaryTable sreg as bw ad dreg s) :=
  binaryOperands_eq_ok.2 ⟨_, _, resolve_src_past_of_ready h.source, readLoc_eq_ok.2 ⟨h.source.readable, rfl⟩,
    resolve_dst_past_of_ready h⟩

/-- Whatever a binary instruction's operand steps answer is the table's line. -/
theorem binaryOperands_eq_table {o : Operand} (h : binaryOperands site sreg as bw ad dreg s = .ok o) :
    o = binaryTable sreg as bw ad dreg s ∧ (Aligned s → BinaryReady sreg as bw ad dreg s) := by
  obtain ⟨sl, s1, hr, hv, hd⟩ := binaryOperands_eq_ok.1 h
  obtain ⟨v, l, t⟩ := o
  obtain ⟨hb, rfl, rfl⟩ := resolve_src_past_eq_ok (site := site) hr
  obtain ⟨readable, rfl⟩ := readLoc_eq_ok.1 hv
  obtain ⟨base, e⟩ | ⟨-, e⟩ | ⟨-, e⟩ := resolve_dst_cases site ad dreg (pc_written_afterSrc (s := s)) <;>
    cases e.symm.trans hd
  exact ⟨rfl, fun ha => ⟨⟨ha, hb, readable⟩, (baseWritten_afterDst_iff pc_written_afterSrc).2 base⟩⟩

theorem faultCause_resolve_dst {f : Fault}
    (h : resolve site .dst (dstMode ad) dreg (afterSrc (past s) as sreg) = .error f) : FaultCause site s f := by
  apply faultCause_afterSrc (as := as) (reg := sreg)
  have marked : (afterSrc (past s) as sreg).isWritten 0 = true := pc_written_afterSrc
  obtain ⟨-, e⟩ | ⟨ha, e⟩ | ⟨hw, e⟩ := resolve_dst_cases site ad dreg marked <;> cases e.symm.trans h
  · exact .misalignedFetch ha
  · exact .uninitializedRegister dreg hw

theorem faultCause_binaryOperands {f : Fault} (h : binaryOperands site sreg as bw ad dreg s = .error f) :
    FaultCause site s f := by
  obtain h | ⟨⟨l, t⟩, hr, h⟩ := bind_eq_error.1 h
  · exact faultCause_resolve_src h
  obtain ⟨-, rfl, rfl⟩ := resolve_src_past_eq_ok hr
  obtain h | ⟨_, -, h⟩ := bind_eq_error.1 h
  · exact faultCause_afterSrc (faultCause_readLoc h)
  obtain h | ⟨_, -, ⟨⟩⟩ := bind_eq_error.1 h
  exact faultCause_resolve_dst h

end

/-- Settles O35: each step of a template that is ready answers its line of the tables. -/
theorem operandStepsFollowTheTables : Obligations.OperandStepsFollowTheTables :=
  ⟨fun _ _ _ _ _ _ _ => binaryOperands_of_ready, fun _ _ _ _ _ => unaryOperand_of_ready⟩

end Sys2Proof.Machine
end

section
/-!
PROOFS. Every instruction with a handler as a plan: its operand steps and one of eight handlers (42_binary.md R106,
R107, 43_unary.md R116). What `exec` answers is then said once, over the tables: when an instruction completes, its next
state, and the cause of its fault.
-/

namespace Sys2Proof.Machine

open Sys2Proof Sys2Proof.Safety

/-! ## Handlers -/

/-- What follows the operand steps of an instruction. -/
inductive Handler where
  /-- MOV and SWPB: write a function of the value, touch no flag. -/
  | store (f : Word → Word)
  /-- ADD, ADDC, SUBC and SUB: the ALU on the value and the destination, write, flags. -/
  | alu (f : Word → Word → AluOut)
  /-- CMP: the flags of the ALU alone. -/
  | compare (f : Word → Word → AluOut)
  /-- RRC and RRA: write a function of the value, C is its bit 0, V is cleared. -/
  | shift (f : Word → Word)
  /-- SXT. -/
  | extend
  /-- PUSH at word width. -/
  | push
  /-- PUSH.B. -/
  | pushByte
  /-- CALL. -/
  | call

/-- The handler as the model runs it. -/
def Handler.run (site : Site) (bw : Width) (o : Operand) : Handler → Except Fault State
  | .store f => writeLoc site o.loc bw (f o.value) o.state
  | .alu f => aluHandler site bw o (f o.value)
  | .compare f => do
    let dv ← readLoc site o.loc bw o.state
    return o.state.setAluFlags (f o.value dv)
  | .shift f => shiftHandler site bw o (f o.value)
  | .extend => do
    let t ← writeLoc site o.loc bw (signExtend o.value) o.state
    return t.setFlags (signExtend o.value != 0) (signExtend o.value == 0) ((signExtend o.value).getLsbD 15) none
  | .push => Machine.pushWord site o.value o.state
  | .pushByte => Machine.pushByte site o.value o.state
  | .call => do
    let t ← pushWord site o.state.pc o.state
    return t.setReg Reg.pc o.value

/-- The handler meets no fault after operand steps that left `o`. -/
def Handler.Ready (bw : Width) (o : Operand) : Handler → Prop
  | .store _ | .shift _ | .extend => Writable o.loc bw
  | .alu _ => Readable o.state o.loc bw ∧ Writable o.loc bw
  | .compare _ => Readable o.state o.loc bw
  | .push | .pushByte | .call => o.state.reg 1 - 2 ≠ 0xFFFF

/-- The state with SP moved down by 2 and the word `v` at the new SP (43_unary.md R122). -/
def pushed (s : State) (v : Word) : State := (s.setReg 1 (s.reg 1 - 2)).setWord (s.reg 1 - 2) v

/-- The state a handler leaves. -/
def Handler.result (bw : Width) (o : Operand) : Handler → State
  | .store f => putAt o.state o.loc bw (f o.value)
  | .alu f =>
    let r := f o.value (valueAt o.state o.loc bw)
    (putAt o.state o.loc bw r.result).setFlags r.c r.z r.n (some r.v)
  | .compare f =>
    let r := f o.value (valueAt o.state o.loc bw)
    o.state.setFlags r.c r.z r.n (some r.v)
  | .shift f =>
    (putAt o.state o.loc bw (f o.value)).setFlags (o.value.getLsbD 0) (f o.value == 0) (negative bw (f o.value))
      (some false)
  | .extend =>
    (putAt o.state o.loc bw (signExtend o.value)).setFlags (signExtend o.value != 0) (signExtend o.value == 0)
      ((signExtend o.value).getLsbD 15) none
  | .push => pushed o.state o.value
  | .pushByte => pushed (draw8 o.state).2 (wordOfBytes (lowByte o.value) (Config.draw8 o.state.draws))
  | .call => (pushed o.state (o.state.reg 0)).setReg 0 o.value

section
variable {site : Site} {bw : Width} {o : Operand}

/-- A step that answers one value under a condition, before another step. -/
theorem bind_eq_ok_iff {α β : Type} {x : Except Fault α} {f : α → Except Fault β} {P : Prop} {a : α} {b : β}
    (h : ∀ {a'}, x = .ok a' ↔ P ∧ a' = a) : (x >>= f) = .ok b ↔ P ∧ f a = .ok b := by
  simp only [bind_eq_ok, h]
  constructor
  · rintro ⟨_, ⟨hp, rfl⟩, hf⟩
    exact ⟨hp, hf⟩
  · rintro ⟨hp, hf⟩
    exact ⟨a, ⟨hp, rfl⟩, hf⟩

theorem bind_pure_eq_ok_iff {α β : Type} {x : Except Fault α} {g : α → β} {P : Prop} {a : α} {b : β}
    (h : ∀ {a'}, x = .ok a' ↔ P ∧ a' = a) : (x >>= fun a => pure (g a)) = .ok b ↔ P ∧ b = g a := by
  rw [bind_eq_ok_iff h, pure_eq_ok, Except.ok.injEq, eq_comm (b := b)]

theorem bind_pure_eq_error {α β : Type} {x : Except Fault α} {g : α → β} {f : Fault} :
    (x >>= fun a => pure (g a)) = .error f ↔ x = .error f := by
  simp [bind_eq_error]

/-- A handler answers exactly when it is ready, and then its result. -/
theorem Handler.run_eq_ok {h : Handler} {t : State} : h.run site bw o = .ok t ↔ h.Ready bw o ∧ t = h.result bw o := by
  cases h with
  | store f => exact writeLoc_eq_ok
  | alu f =>
    rw [run, aluHandler, bind_eq_ok_iff readLoc_eq_ok, bind_pure_eq_ok_iff writeLoc_eq_ok, ← and_assoc]
    rfl
  | compare f => exact bind_pure_eq_ok_iff readLoc_eq_ok
  | shift f => exact bind_pure_eq_ok_iff writeLoc_eq_ok
  | extend => exact bind_pure_eq_ok_iff writeLoc_eq_ok
  | push | pushByte => exact pushWord_eq_ok
  | call => exact bind_pure_eq_ok_iff pushWord_eq_ok

theorem faultCause_pushWord {v : Word} {s : State} {f : Fault} (h : pushWord site v s = .error f) :
    FaultCause site s f := by
  obtain ⟨top, rfl⟩ := pushWord_eq_error.1 h
  exact top ▸ .wordAccessAtTop

theorem Handler.faultCause {h : Handler} {f : Fault} (hf : h.run site bw o = .error f) : FaultCause site o.state f := by
  cases h with
  | store f => exact faultCause_writeLoc hf
  | alu f =>
    obtain hf | ⟨_, -, hf⟩ := bind_eq_error.1 hf
    · exact faultCause_readLoc hf
    · exact faultCause_writeLoc (bind_pure_eq_error.1 hf)
  | compare f => exact faultCause_readLoc (bind_pure_eq_error.1 hf)
  | shift f => exact faultCause_writeLoc (bind_pure_eq_error.1 hf)
  | extend => exact faultCause_writeLoc (bind_pure_eq_error.1 hf)
  | push => exact faultCause_pushWord hf
  | pushByte => exact (faultCause_pushWord hf).before id fun _ => id
  | call => exact faultCause_pushWord (bind_pure_eq_error.1 hf)

end

/-! ## Operand steps -/

/-- The operands of an instruction. -/
inductive Operands where
  | binary (sreg : Reg) (as : Mode) (ad : DstMode) (dreg : Reg)
  | unary (as : Mode) (reg : Reg)

/-- The operand steps as the model runs them. -/
def Operands.run (site : Site) (bw : Width) (s : State) : Operands → Except Fault Operand
  | .binary sreg as ad dreg => binaryOperands site sreg as bw ad dreg s
  | .unary as reg => unaryOperand site as bw reg s

/-- The operand steps meet no fault. -/
def Operands.Ready (bw : Width) (s : State) : Operands → Prop
  | .binary sreg as ad dreg => BinaryReady sreg as bw ad dreg s
  | .unary as reg => SourceReady as bw reg s

/-- What the tables say that the operand steps leave. -/
def Operands.table (bw : Width) (s : State) : Operands → Operand
  | .binary sreg as ad dreg => binaryTable sreg as bw ad dreg s
  | .unary as reg => unaryTable as bw reg s

section
variable {p : Operands} {site : Site} {bw : Width} {s : State}

theorem Operands.run_of_ready (h : p.Ready bw s) : p.run site bw s = .ok (p.table bw s) := by
  cases p with
  | binary => exact binaryOperands_of_ready h
  | unary => exact unaryOperand_of_ready h

theorem Operands.eq_table {o : Operand} (h : p.run site bw s = .ok o) :
    o = p.table bw s ∧ (Aligned s → p.Ready bw s) := by
  cases p with
  | binary => exact binaryOperands_eq_table h
  | unary => exact unaryOperand_eq_table h

theorem Operands.faultCause {f : Fault} (h : p.run site bw s = .error f) : FaultCause site s f := by
  cases p with
  | binary => exact faultCause_binaryOperands h
  | unary => exact faultCause_unaryOperand h

theorem Operands.aligned_table (h : Aligned s) : Aligned (p.table bw s).state := by
  cases p with
  | unary => exact aligned_afterSrc.2 (aligned_past.2 h)
  | binary => exact aligned_afterDst.2 (aligned_afterSrc.2 (aligned_past.2 h))

theorem Operands.isWritten_table {r : Reg} (h : s.isWritten r = true) : (p.table bw s).state.isWritten r = true := by
  cases p with
  | unary => exact isWritten_afterSrc (isWritten_past h)
  | binary => exact isWritten_afterDst (isWritten_afterSrc (isWritten_past h))

theorem Operands.mem_table : (p.table bw s).state.mem = s.mem := by
  cases p with
  | unary => exact mem_afterSrc
  | binary => exact mem_afterDst.trans mem_afterSrc

theorem Operands.draws_table : (p.table bw s).state.draws = s.draws := by
  cases p with
  | unary => exact draws_afterSrc
  | binary => exact draws_afterDst.trans draws_afterSrc

end

/-! ## Plans -/

/-- How an instruction with a handler runs: its width, its operand steps, its handler. -/
structure Plan where
  width : Width
  operands : Operands
  handler : Handler

/-- The plan of an instruction, with the C flag as it stands when the instruction begins; none for the words whose
meaning is their fault. -/
def plan (carry : Bool) : Instr → Option Plan
  | .mov sreg as bw ad dreg => some ⟨bw, .binary sreg as ad dreg, .store id⟩
  | .add sreg as bw ad dreg => some ⟨bw, .binary sreg as ad dreg, .alu fun v dv => addWithCarry bw v dv false⟩
  | .addc sreg as bw ad dreg => some ⟨bw, .binary sreg as ad dreg, .alu fun v dv => addWithCarry bw v dv carry⟩
  | .subc sreg as bw ad dreg => some ⟨bw, .binary sreg as ad dreg, .alu fun v dv => subWithCarry bw v dv carry⟩
  | .sub sreg as bw ad dreg => some ⟨bw, .binary sreg as ad dreg, .alu fun v dv => subWithCarry bw v dv true⟩
  | .cmp sreg as bw ad dreg => some ⟨bw, .binary sreg as ad dreg, .compare fun v dv => subWithCarry bw v dv true⟩
  | .rrc bw as reg => some ⟨bw, .unary as reg, .shift (rotateRight bw carry)⟩
  | .rra bw as reg => some ⟨bw, .unary as reg, .shift (shiftRight bw)⟩
  | .swpb .word as reg => some ⟨.word, .unary as reg, .store swapBytes⟩
  | .sxt .word as reg => some ⟨.word, .unary as reg, .extend⟩
  | .push .word as reg => some ⟨.word, .unary as reg, .push⟩
  | .push .byte as reg => some ⟨.byte, .unary as reg, .pushByte⟩
  | .call .word as reg => some ⟨.word, .unary as reg, .call⟩
  | .swpb .byte _ _ | .sxt .byte _ _ | .call .byte _ _ => none
  | .unclassified0000 _ | .unclassified1400 _ | .unclassified1800 _ | .unclassified2000 _ => none
  | .unaryUop6 _ | .unaryUop7 _ | .swpbByte _ _ | .sxtByte _ _ | .callByte _ _ => none
  | .binaryOpAB _ | .binaryOpCF _ => none

/-- `exec` runs the plan: the one place where the meanings of the instructions with a handler are unfolded. -/
theorem exec_eq_plan {i : Instr} {s : State} {p : Plan} (h : plan s.carry i = some p) :
    exec i s = finish (p.operands.run (siteOf i s) p.width s >>= fun o => p.handler.run (siteOf i s) p.width o) := by
  unfold plan at h
  split at h <;> cases h <;> rfl

/-- An instruction without a plan is one whose meaning is its fault. -/
theorem decodeFault_of_plan_eq_none {c : Bool} {i : Instr} (h : plan c i = none) : ∃ k, decodeFault i = some k := by
  unfold plan at h
  split at h <;> cases h <;> exact ⟨_, rfl⟩

section
variable {i : Instr} {s : State} {p : Plan}

/-- An instruction whose operand steps and handler are ready completes with its handler's result. -/
theorem exec_of_ready (hp : plan s.carry i = some p) (ho : p.operands.Ready p.width s)
    (hh : p.handler.Ready p.width (p.operands.table p.width s)) :
    exec i s = .next (p.handler.result p.width (p.operands.table p.width s)) := by
  rw [exec_eq_plan hp, Operands.run_of_ready ho, ok_bind]
  exact finish_eq_next.2 (Handler.run_eq_ok.2 ⟨hh, rfl⟩)

theorem exec_of_plan_eq_next {t : State} (hp : plan s.carry i = some p) (h : exec i s = .next t) :
    (Aligned s → p.operands.Ready p.width s) ∧ p.handler.Ready p.width (p.operands.table p.width s) ∧
      t = p.handler.result p.width (p.operands.table p.width s) := by
  rw [exec_eq_plan hp, finish_eq_next] at h
  obtain ⟨o, ho, hh⟩ := bind_eq_ok.1 h
  obtain ⟨rfl, ready⟩ := Operands.eq_table ho
  exact ⟨ready, Handler.run_eq_ok.1 hh⟩

/-- Everything a completed instruction is: the result of its handler on what the tables say. -/
theorem exec_eq_next {t : State} (h : exec i s = .next t) :
    ∃ p, plan s.carry i = some p ∧ t = p.handler.result p.width (p.operands.table p.width s) := by
  cases hp : plan s.carry i with
  | some p => exact ⟨p, rfl, (exec_of_plan_eq_next hp h).2.2⟩
  | none =>
    obtain ⟨k, hk⟩ := decodeFault_of_plan_eq_none hp
    rw [exec_eq_report hk] at h
    cases h

/-- At an even PC an instruction completes exactly when its operand steps and its handler are ready. -/
theorem completes_iff (hp : plan s.carry i = some p) (ha : Aligned s) :
    Completes (exec i s) ↔
      p.operands.Ready p.width s ∧ p.handler.Ready p.width (p.operands.table p.width s) := by
  constructor
  · rintro ⟨t, h⟩
    obtain ⟨ho, hh, -⟩ := exec_of_plan_eq_next hp h
    exact ⟨ho ha, hh⟩
  · rintro ⟨ho, hh⟩
    exact ⟨_, exec_of_ready hp ho hh⟩

theorem not_completes_of_plan_eq_none (hp : plan s.carry i = none) : ¬ Completes (exec i s) := by
  rintro ⟨t, h⟩
  obtain ⟨p, hp', -⟩ := exec_eq_next h
  cases hp.symm.trans hp'

/-- The fault of an instruction is the one its word itself raises, or has one of four causes in the state before it. -/
theorem exec_eq_fault {f : Fault} (h : exec i s = .fault f) :
    (∃ k, f = DecodeFault.report k (siteOf i s)) ∨ FaultCause (siteOf i s) s f := by
  cases hp : plan s.carry i with
  | none =>
    obtain ⟨k, hk⟩ := decodeFault_of_plan_eq_none hp
    rw [exec_eq_report hk] at h
    cases h
    exact .inl ⟨k, rfl⟩
  | some p =>
    rw [exec_eq_plan hp, finish_eq_fault] at h
    obtain h | ⟨o, ho, h⟩ := bind_eq_error.1 h
    · exact .inr (Operands.faultCause h)
    · obtain ⟨rfl, -⟩ := Operands.eq_table ho
      exact .inr ((Handler.faultCause h).before Operands.aligned_table fun _ => Operands.isWritten_table)

/-- An instruction whose operand steps fault ends with that fault. -/
theorem exec_of_operands_error {f : Fault} (hp : plan s.carry i = some p)
    (h : p.operands.run (siteOf i s) p.width s = .error f) : exec i s = .fault f := by
  rw [exec_eq_plan hp, h, error_bind]
  rfl

/-- An instruction whose handler faults after its operand steps ends with that fault. -/
theorem exec_of_handler_error {f : Fault} (hp : plan s.carry i = some p) (ho : p.operands.Ready p.width s)
    (h : p.handler.run (siteOf i s) p.width (p.operands.table p.width s) = .error f) : exec i s = .fault f := by
  rw [exec_eq_plan hp, Operands.run_of_ready ho, ok_bind, h]
  rfl

end

end Sys2Proof.Machine
end

section
/-!
PROOFS. The next state of each instruction in every addressing form (42_binary.md R107-R113, 43_unary.md R118-R125), and
exactly when it completes (60_exceptions.md R137): each is its plan, over the tables.
-/

namespace Sys2Proof.Machine

open Sys2Proof Sys2Proof.Safety

/-! ## The binary instructions -/

/-- The destination of a binary instruction is no constant, so what can be read can be written. -/
theorem writable_of_readable_dst {sreg dreg : Reg} {as : Mode} {bw : Width} {ad : DstMode} {s : State}
    (h : Readable (binaryTable sreg as bw ad dreg s).state (binaryTable sreg as bw ad dreg s).loc bw) :
    Writable (binaryTable sreg as bw ad dreg s).loc bw := by
  cases ad with
  | register => trivial
  | indexed => exact h

/-- Settles O36: the handler writes the value as it was read, and reads nothing more. -/
theorem movStoresTheSourceValue : Obligations.MovStoresTheSourceValue := fun sreg as bw ad dreg _ ho hw =>
  exec_of_ready (i := .mov sreg as bw ad dreg) rfl ho hw

/-- An ALU instruction that writes back completes with its result at the destination and then its flags. -/
theorem exec_alu_of_ready {i : Instr} {sreg dreg : Reg} {as : Mode} {bw : Width} {ad : DstMode} {s : State}
    {f : Word → Word → AluOut} (hp : plan s.carry i = some ⟨bw, .binary sreg as ad dreg, .alu f⟩)
    (ho : BinaryReady sreg as bw ad dreg s) (hr : Readable (binaryTable sreg as bw ad dreg s).state
      (binaryTable sreg as bw ad dreg s).loc bw) :
    exec i s = .next (Handler.result bw (binaryTable sreg as bw ad dreg s) (.alu f)) :=
  exec_of_ready hp ho ⟨hr, writable_of_readable_dst hr⟩

/-- Settles O37: the ALU with carry-in 0. -/
theorem addStoresTheSumThenSetsFlags : Obligations.AddStoresTheSumThenSetsFlags := fun sreg as bw ad dreg _ ho hr =>
  exec_alu_of_ready (i := .add sreg as bw ad dreg) rfl ho hr

/-- Settles O38: the ALU with the C flag of the state before the instruction. -/
theorem addcAddsTheCarryFlag : Obligations.AddcAddsTheCarryFlag := fun sreg as bw ad dreg _ ho hr =>
  exec_alu_of_ready (i := .addc sreg as bw ad dreg) rfl ho hr

/-- Settles O39: the ALU on the masked complement, with the C flag of the state before the instruction. -/
theorem subcAddsTheComplementAndCarry : Obligations.SubcAddsTheComplementAndCarry := fun sreg as bw ad dreg _ ho hr =>
  exec_alu_of_ready (i := .subc sreg as bw ad dreg) rfl ho hr

/-- Settles O40: the ALU on the masked complement, with carry-in 1. -/
theorem subAddsTheComplementAndOne : Obligations.SubAddsTheComplementAndOne := fun sreg as bw ad dreg _ ho hr =>
  exec_alu_of_ready (i := .sub sreg as bw ad dreg) rfl ho hr

/-- Settles O41: the flags of the subtraction, and no write. -/
theorem cmpSetsTheFlagsOfSubOnly : Obligations.CmpSetsTheFlagsOfSubOnly := fun sreg as bw ad dreg _ ho hr =>
  exec_of_ready (i := .cmp sreg as bw ad dreg) rfl ho hr

/-! ## The unary instructions -/

/-- Settles O42: C of the state before the instruction goes into the sign bit. -/
theorem rrcRotatesThroughCarry : Obligations.RrcRotatesThroughCarry := fun bw as reg _ ho hw =>
  exec_of_ready (i := .rrc bw as reg) rfl ho hw

/-- Settles O43: the high byte becomes the low one. -/
theorem swpbExchangesBytes : Obligations.SwpbExchangesBytes := fun as reg _ ho hw =>
  exec_of_ready (i := .swpb .word as reg) rfl ho hw

theorem low_zext16 (b : Byte) : low .byte (zext16 b) = (zext16 b).toNat := by
  have small : (zext16 b).toNat < 2 ^ 8 := by
    rw [zext16, BitVec.toNat_setWidth]
    omega
  exact Nat.mod_eq_of_lt small

/-- A value read at a width has no bit above it (40_operand_resolver.md R86). -/
theorem valueAt_and_mask (s : State) (l : Location) (w : Width) : valueAt s l w &&& mask w = valueAt s l w := by
  cases w with
  | word => exact mask_word _
  | byte =>
    cases l with
    | reg r => exact mask_mask .byte _
    | mem a => exact BitVec.eq_of_toNat_eq ((toNat_and_mask ..).trans (low_zext16 _))
    | const c => exact mask_mask .byte _

/-- The sign bit of a shifted value is the one put back (43_unary.md R120). -/
theorem sign_shiftRight {w : Width} {v : Word} (h : v &&& mask w = v) :
    (shiftRight w v).getLsbD (bits w - 1) = v.getLsbD (bits w - 1) := by
  have above : v.getLsbD (bits w) = false := by
    rw [← h, BitVec.getLsbD_and]
    cases w <;> simp [mask, bits]
  have sign : (signMask w).getLsbD (bits w - 1) = true := by cases w <;> rfl
  have next : 1 + (bits w - 1) = bits w := by cases w <;> rfl
  rw [shiftRight, BitVec.getLsbD_or, BitVec.getLsbD_and, BitVec.getLsbD_ushiftRight, next, above, sign, Bool.and_true,
    Bool.false_or]

/-- Settles O44: the shifted value has the old sign bit, because the bit shifted into its place is 0. -/
theorem rraKeepsTheSign : Obligations.RraKeepsTheSign := fun bw as reg _ ho hw =>
  ⟨exec_of_ready (i := .rra bw as reg) rfl ho hw, sign_shiftRight (valueAt_and_mask ..)⟩

/-- Settles O45: Z follows the result, C is its complement, and V is not named. -/
theorem sxtExtendsTheSign : Obligations.SxtExtendsTheSign := fun as reg _ ho hw =>
  exec_of_ready (i := .sxt .word as reg) rfl ho hw

/-- Settles O46: the operand is read first, then SP moves. -/
theorem pushStoresTheWordBelowSp : Obligations.PushStoresTheWordBelowSp := fun as reg _ ho hsp =>
  exec_of_ready (i := .push .word as reg) rfl ho hsp

/-- Settles O47: the byte form pushes a word whose high byte is the next one drawn. -/
theorem pushByteStoresAFreeHighByte : Obligations.PushByteStoresAFreeHighByte := fun as reg _ ho hsp =>
  exec_of_ready (i := .push .byte as reg) rfl ho hsp

/-- The PC past the instruction word and the extension words of a source operand (30_encoding.md R65). -/
theorem pc_unaryTable (as : Mode) (bw : Width) (reg : Reg) (s : State) :
    (unaryTable as bw reg s).state.reg 0 = s.reg 0 + BitVec.ofNat 16 (2 * (1 + srcExtWords as reg)) := by
  have moved : (unaryTable as bw reg s).state.reg 0 = s.reg 0 + 2 + BitVec.ofNat 16 (2 * srcExtWords as reg) :=
    pc_afterSrc.trans (by simp)
  rw [moved, BitVec.add_assoc, Nat.mul_add, BitVec.ofNat_add]
  rfl

theorem pc_binaryTable (sreg : Reg) (as : Mode) (bw : Width) (ad : DstMode) (dreg : Reg) (s : State) :
    (binaryTable sreg as bw ad dreg s).state.reg 0 =
      s.reg 0 + BitVec.ofNat 16 (2 * (1 + srcExtWords as sreg + dstExtWords ad)) := by
  have moved : (binaryTable sreg as bw ad dreg s).state.reg 0 =
      (unaryTable as bw sreg s).state.reg 0 + BitVec.ofNat 16 (2 * dstExtWords ad) := pc_afterDst
  rw [moved, pc_unaryTable, BitVec.add_assoc, Nat.mul_add 2 (1 + _), BitVec.ofNat_add]

/-- Settles O48: the pushed PC is the one past the words of the operand steps. -/
theorem callPushesThePcAndJumps : Obligations.CallPushesThePcAndJumps := fun as reg s ho hsp =>
  ⟨pc_unaryTable as .word reg s, exec_of_ready (i := .call .word as reg) rfl ho hsp⟩

/-! ## When an instruction completes -/

theorem completes_alu_iff {i : Instr} {sreg dreg : Reg} {as : Mode} {bw : Width} {ad : DstMode} {s : State}
    {f : Word → Word → AluOut} (hp : plan s.carry i = some ⟨bw, .binary sreg as ad dreg, .alu f⟩) (ha : Aligned s) :
    Completes (exec i s) ↔ BinaryReady sreg as bw ad dreg s ∧
      Readable (binaryTable sreg as bw ad dreg s).state (binaryTable sreg as bw ad dreg s).loc bw :=
  (completes_iff hp ha).trans (and_congr_right fun _ => ⟨And.left, fun hr => ⟨hr, writable_of_readable_dst hr⟩⟩)

/-- Settles O50: an ALU instruction reads its destination before it writes it, MOV only writes it. -/
theorem binaryCompletesExactlyWhenReady : Obligations.BinaryCompletesExactlyWhenReady := by
  intro sreg as bw ad dreg s ha
  refine ⟨completes_iff (i := .mov sreg as bw ad dreg) rfl ha, fun i hi => ?_⟩
  simp only [List.mem_cons, List.not_mem_nil, or_false] at hi
  obtain rfl | rfl | rfl | rfl | rfl := hi
  · exact completes_alu_iff (i := .add sreg as bw ad dreg) rfl ha
  · exact completes_alu_iff (i := .addc sreg as bw ad dreg) rfl ha
  · exact completes_alu_iff (i := .subc sreg as bw ad dreg) rfl ha
  · exact completes_alu_iff (i := .sub sreg as bw ad dreg) rfl ha
  · exact completes_iff (i := .cmp sreg as bw ad dreg) rfl ha

/-- Settles O51: the byte forms of SWPB, SXT and CALL have no plan, and every other form completes when its operand
steps and its handler are ready. -/
theorem unaryCompletesExactlyWhenReady : Obligations.UnaryCompletesExactlyWhenReady := by
  intro as bw reg s ha
  refine ⟨fun i hi => ?shift, fun i hi => ?wordOnly, ?push, ?call⟩
  case shift =>
    simp only [List.mem_cons, List.not_mem_nil, or_false] at hi
    obtain rfl | rfl := hi
    · exact completes_iff (i := .rrc bw as reg) rfl ha
    · exact completes_iff (i := .rra bw as reg) rfl ha
  case wordOnly =>
    simp only [List.mem_cons, List.not_mem_nil, or_false] at hi
    cases bw with
    | byte => obtain rfl | rfl := hi <;> exact ⟨fun h => absurd h (not_completes_of_plan_eq_none rfl), nofun⟩
    | word =>
      rw [eq_self, true_and]
      obtain rfl | rfl := hi
      · exact completes_iff (i := .swpb .word as reg) rfl ha
      · exact completes_iff (i := .sxt .word as reg) rfl ha
  case push =>
    cases bw with
    | word => exact completes_iff (i := .push .word as reg) rfl ha
    | byte => exact completes_iff (i := .push .byte as reg) rfl ha
  case call =>
    cases bw with
    | byte => exact ⟨fun h => absurd h (not_completes_of_plan_eq_none rfl), nofun⟩
    | word =>
      rw [eq_self, true_and]
      exact completes_iff (i := .call .word as reg) rfl ha

end Sys2Proof.Machine
end

section
/-!
PROOFS. What every step keeps (10_state.md R17, R32, R35): written marks and the canonical memory, and from them the
invariants; and what the states a run starts from hold (70_reset_and_hazards.md R148, R158).
-/

namespace Sys2Proof.Machine

open Sys2Proof Sys2Proof.Safety

/-! ## Registers and flags -/

/-- Settles O10: a register write reads back and touches no other register. -/
theorem everyRegisterReadsAsWritten : Obligations.EveryRegisterReadsAsWritten := by
  intro s r q v
  exact ⟨by rw [reg_setReg, if_pos rfl],
    fun hq => ⟨by rw [reg_setReg, if_neg hq], by rw [isWritten_setReg, if_neg hq]⟩,
    by rw [isWritten_setReg, if_pos rfl]⟩

/-- Settles O34: SetFlags is one write to R2, of a word with the named bits put in. -/
theorem setFlagsWritesOnlyNamedBits : Obligations.SetFlagsWritesOnlyNamedBits := by
  intro s c z n v t
  have bit (k : Nat) : t.sr.getLsbD k = (flagsInto (s.reg 2) c z n v).getLsbD k := by simp [t]
  have other (q : Reg) (hq : q ≠ 2) : t.reg q = s.reg q := by simp [t, hq]
  simp only [getLsbD_flagsInto] at bit
  refine ⟨bit 0, bit 1, bit 2, ?_, ?_, fun k h0 h1 h2 h8 => (bit k).trans (by simp [h0, h1, h2, h8]), other⟩
  · rintro b rfl
    exact bit 8
  · rintro rfl
    exact bit 8

/-! ## Marks and the canonical memory -/

section
variable {s : State} {q : Reg}

theorem isWritten_putAt {l : Location} {w : Width} {v : Word} (h : s.isWritten q = true) :
    (putAt s l w v).isWritten q = true := by
  cases l <;> cases w <;> simp [putAt, h]

theorem wf_putAt {l : Location} {w : Width} {v : Word} (h : Memory.wf s.mem) : Memory.wf (putAt s l w v).mem := by
  cases l with
  | reg r => cases w <;> exact h
  | mem a =>
    cases w with
    | word => exact wf_setWord h
    | byte => exact wf_setByte h
  | const c => cases w <;> exact h

theorem isWritten_pushed {v : Word} (h : s.isWritten q = true) : (pushed s v).isWritten q = true := by
  simp [pushed, h]

/-- No handler clears a mark. -/
theorem Handler.isWritten_result {h : Handler} {bw : Width} {o : Operand} (hq : o.state.isWritten q = true) :
    (h.result bw o).isWritten q = true := by
  cases h with
  | store f => exact isWritten_putAt hq
  | alu f | shift f | extend => simp [result, isWritten_putAt hq]
  | compare f => simp [result, hq]
  | push => exact isWritten_pushed hq
  | pushByte => exact isWritten_pushed hq
  | call => simp [result, isWritten_pushed hq]

/-- Every handler keeps the memory list canonical. -/
theorem Handler.wf_result {h : Handler} {bw : Width} {o : Operand} (hm : Memory.wf o.state.mem) :
    Memory.wf (h.result bw o).mem := by
  cases h with
  | store f | alu f | shift f | extend => exact wf_putAt hm
  | compare f => exact hm
  | push | pushByte | call => exact wf_setWord hm

/-- No completed instruction clears a mark. -/
theorem isWritten_of_exec {i : Instr} {t : State} (h : exec i s = .next t) (hq : s.isWritten q = true) :
    t.isWritten q = true := by
  obtain ⟨p, -, rfl⟩ := exec_eq_next h
  exact Handler.isWritten_result (Operands.isWritten_table hq)

/-- Every completed instruction keeps the memory list canonical. -/
theorem wf_of_exec {i : Instr} {t : State} (h : exec i s = .next t) (hm : Memory.wf s.mem) : Memory.wf t.mem := by
  obtain ⟨p, -, rfl⟩ := exec_eq_next h
  exact Handler.wf_result (by rwa [Operands.mem_table])

/-- A completed step is a completed instruction at an even PC. -/
theorem exec_of_step_eq_next {t : State} (h : step s = .next t) : exec (decodeWord (s.wordAt s.pc)) s = .next t := by
  obtain ⟨-, e⟩ | ⟨-, e⟩ := step_cases s
  · cases e.symm.trans h
  · exact e.symm.trans h

end

/-- Settles O15: the operand steps and the handler of an instruction only set marks. -/
theorem writtenMarksAreNeverCleared : Obligations.WrittenMarksAreNeverCleared := fun _ _ _ h hr =>
  isWritten_of_exec (exec_of_step_eq_next h) hr

/-- With every register marked no instruction raises UninitializedRegister (10_state.md R17). -/
theorem exec_ne_uninitialized {s : State} (hs : AllWritten s) (i : Instr) (site : Site) (r : Reg) :
    exec i s ≠ .fault (.uninitializedRegister site r) := by
  intro h
  obtain ⟨k, hk⟩ | hc := exec_eq_fault h
  · cases k <;> cases hk
  · cases hc with
    | uninitializedRegister _ unwritten => simp [hs r] at unwritten

/-- Settles O16: marks are kept, and the one cause of the fault, a clear mark in the state before the instruction,
cannot arise. -/
theorem allWrittenIsKeptAndNeverFaults : Obligations.AllWrittenIsKeptAndNeverFaults := by
  intro s hs
  refine ⟨fun t h r => writtenMarksAreNeverCleared s t r h (hs r), fun site r h => ?_⟩
  obtain ⟨-, e⟩ | ⟨-, e⟩ := step_cases s
  · cases e.symm.trans h
  · exact exec_ne_uninitialized hs _ site r (e.symm.trans h)

/-- Settles O57: both parts are kept by every completed instruction. -/
theorem stepKeepsTheStateInvariant : Obligations.StepKeepsTheStateInvariant := by
  rintro s t ⟨hm, h0, h1, h2⟩ h
  have kept (q : Reg) (hq : s.isWritten q = true) : t.isWritten q = true := writtenMarksAreNeverCleared s t q h hq
  exact ⟨wf_of_exec (exec_of_step_eq_next h) hm, kept 0 h0, kept 1 h1, kept 2 h2⟩

/-! ## Start states -/

/-- Construction marks R0, R1 and R2 and no other register (10_state.md R35). -/
theorem isWritten_construct (codeStart stackStart : Word) (r : Reg) :
    (State.construct codeStart stackStart).isWritten r = decide (r.val < 3) := by
  revert r
  change ∀ r : Reg, (State.construct 0 0).isWritten r = decide (r.val < 3)
  decide

/-- Settles O11: construction, read field by field. -/
theorem constructionLeavesTheStatedState : Obligations.ConstructionLeavesTheStatedState := by
  intro codeStart stackStart s
  refine ⟨rfl, rfl, rfl, BitVec.getLsbD_zero, BitVec.getLsbD_zero, BitVec.getLsbD_zero, BitVec.getLsbD_zero,
    isWritten_construct codeStart stackStart, fun r hr => ?_, fun _ => rfl⟩
  have unmarked : s.isWritten r = false := by
    rw [isWritten_construct]
    exact decide_eq_false (by omega)
  rw [hostReadReg, unmarked, if_neg Bool.false_ne_true]

theorem allWritten_reset : AllWritten State.reset := by
  unfold AllWritten
  decide

/-- Settles O12: the thirteen assignments of the launch state, run. -/
theorem resetIsTheChosenLaunchState : Obligations.ResetIsTheChosenLaunchState := ⟨by decide, allWritten_reset⟩

/-- Settles O58: neither state lists a byte of memory, and both mark R0, R1 and R2. -/
theorem startStatesMeetTheInvariant : Obligations.StartStatesMeetTheInvariant :=
  ⟨fun _ _ => ⟨Memory.wf_nil, isWritten_construct .., isWritten_construct .., isWritten_construct ..⟩,
    ⟨reset_mem_wf, allWritten_reset 0, allWritten_reset 1, allWritten_reset 2⟩⟩

end Sys2Proof.Machine
end

section
/-!
PROOFS. Which fault an instruction ends with (60_exceptions.md R131-R137): the words that are their own fault, an
unwritten register, a word access at 0xFFFF, a constant as a destination, and what every report names.
-/

namespace Sys2Proof.Machine

open Sys2Proof Sys2Proof.Safety

/-! ## The words that are their own fault -/

/-- Settles O49: each of these instructions has a decode fault, and `exec` is its report. -/
theorem reservedInstructionsFault : Obligations.ReservedInstructionsFault := by
  constructor
  · intro i s b7 b10 b11 b12 b13 b14 as reg hi
    simp only [List.mem_cons, List.not_mem_nil, or_false] at hi
    refine exec_eq_report (k := .unimplemented) ?_ s
    obtain rfl | rfl | rfl | rfl | rfl | rfl | rfl | rfl | rfl | rfl := hi <;> rfl
  · intro i s as reg hi
    simp only [List.mem_cons, List.not_mem_nil, or_false] at hi
    refine exec_eq_report (k := .byteForm) ?_ s
    obtain rfl | rfl | rfl | rfl := hi <;> rfl

theorem exec_ne_refused (i : Instr) (s : State) (r : Refusal) : exec i s ≠ .refused r := by
  cases hp : plan s.carry i with
  | some p =>
    rw [exec_eq_plan hp]
    exact finish_ne_refused
  | none =>
    obtain ⟨k, hk⟩ := decodeFault_of_plan_eq_none hp
    rw [exec_eq_report hk]
    nofun

/-- Settles O9: an instruction ends its plan or reports its own fault, and a step is an instruction or a misaligned
fetch. -/
theorem nothingIsRefused : Obligations.NothingIsRefused := by
  refine fun i s r => ⟨exec_ne_refused i s r, fun h => ?_⟩
  obtain ⟨-, e⟩ | ⟨-, e⟩ := step_cases s
  · cases e.symm.trans h
  · exact exec_ne_refused _ s r (e.symm.trans h)

/-! ## What a report names (60_exceptions.md R135) -/

/-- Away from a misaligned fetch, a report names the address and the word of its instruction. -/
theorem FaultCause.report_site {site : Site} {s : State} {f : Fault} (h : FaultCause site s f) (ha : Aligned s) :
    (faultOutputs f).pc = site.pc ∧ faultWord f = some site.word := by
  cases h with
  | misalignedFetch h => exact absurd ha h
  | uninitializedRegister | wordAccessAtTop | constantDestination => exact ⟨rfl, rfl⟩

theorem DecodeFault.report_site (k : DecodeFault) (site : Site) :
    (faultOutputs (k.report site)).pc = site.pc ∧ faultWord (k.report site) = some site.word := by
  cases k <;> exact ⟨rfl, rfl⟩

/-- Settles O52: at an even PC no cause is a misaligned fetch, and the word of the decoded instruction is the one
fetched. -/
theorem faultReportNamesItsInstruction : Obligations.FaultReportNamesItsInstruction := by
  intro s f h
  obtain ⟨odd, e⟩ | ⟨ha, e⟩ := step_cases s
  · cases e.symm.trans h
    rw [if_pos odd]
    exact ⟨rfl, rfl⟩
  · rw [if_neg (Bool.eq_false_iff.1 ha)]
    have site : siteOf (decodeWord (s.wordAt s.pc)) s = ⟨s.pc, s.wordAt s.pc⟩ := by rw [siteOf, encodeWord_decodeWord]
    have cause := exec_eq_fault (e.symm.trans h)
    rw [site] at cause
    obtain ⟨k, rfl⟩ | cause := cause
    · exact k.report_site _
    · exact cause.report_site ha

/-! ## Faults of the source operand -/

/-- The mode and register of the source operand. -/
def Operands.HasSource (as : Mode) (reg : Reg) : Operands → Prop
  | .binary sreg as' _ _ => as' = as ∧ sreg = reg
  | .unary as' reg' => as' = as ∧ reg' = reg

section
variable {p : Operands} {site : Site} {as : Mode} {bw : Width} {reg : Reg} {s : State} {f : Fault}

theorem Operands.run_of_resolve_error (hp : p.HasSource as reg) (h : resolve site .src as reg (past s) = .error f) :
    p.run site bw s = .error f := by
  cases p with
  | binary | unary =>
    obtain ⟨rfl, rfl⟩ := hp
    exact bind_eq_error.2 (.inl h)

theorem Operands.run_of_read_error {l : Location} {t : State} (hp : p.HasSource as reg)
    (hr : resolve site .src as reg (past s) = .ok (l, t)) (h : readLoc site l bw t = .error f) :
    p.run site bw s = .error f := by
  cases p with
  | binary | unary =>
    obtain ⟨rfl, rfl⟩ := hp
    exact bind_eq_error.2 (.inr ⟨_, hr, bind_eq_error.2 (.inl h)⟩)

theorem resolve_src_register (h3 : reg ≠ 3) (site : Site) (s : State) :
    resolve site .src .register reg s = .ok (.reg reg, s) :=
  resolve_src_of_mode (by simp [constantOf, h3]) (by simp) site s

/-- A source register without a mark faults, as a value or as a base (10_state.md R17). -/
theorem Operands.run_of_unwritten (hp : p.HasSource as reg) (ha : Aligned s) (h0 : reg ≠ 0) (h3 : reg ≠ 3)
    (h2 : reg = 2 → as = .register) (hw : s.isWritten reg = false) :
    p.run site bw s = .error (.uninitializedRegister site reg) := by
  have unwritten : (past s).isWritten reg = false := by simpa [h0] using hw
  by_cases hm : as = .register
  · subst hm
    exact run_of_read_error hp (resolve_src_register h3 site _) (readLoc_eq_error.2 (.inl ⟨reg, rfl, unwritten, rfl⟩))
  · have base : srcBase as reg = some reg := srcBase_eq_some.2 ⟨rfl, fun e => hm (h2 e), h3, hm⟩
    exact run_of_resolve_error hp (resolve_src_of_unwritten base (fun _ => aligned_past.2 ha) h0 unwritten)

end

/-- The twelve instructions with a source operand have a plan whose first steps are that operand's. -/
theorem plan_hasSource {reg dreg : Reg} {as : Mode} {bw : Width} {ad : DstMode} {i : Instr} (c : Bool)
    (hi : i ∈ [Instr.mov reg as bw ad dreg, .add reg as bw ad dreg, .addc reg as bw ad dreg, .subc reg as bw ad dreg,
      .sub reg as bw ad dreg, .cmp reg as bw ad dreg, .rrc bw as reg, .swpb .word as reg, .rra bw as reg,
      .sxt .word as reg, .push bw as reg, .call .word as reg]) :
    ∃ p, plan c i = some p ∧ p.operands.HasSource as reg ∧ (bw = .word → p.width = .word) := by
  simp only [List.mem_cons, List.not_mem_nil, or_false] at hi
  obtain rfl | rfl | rfl | rfl | rfl | rfl | rfl | rfl | rfl | rfl | rfl | rfl := hi
  on_goal 11 => cases bw
  all_goals exact ⟨_, rfl, ⟨rfl, rfl⟩, by rintro ⟨⟩ <;> rfl⟩

/-- Settles O13: the source operand is resolved and read before anything else. -/
theorem unwrittenSourceRegisterFaults : Obligations.UnwrittenSourceRegisterFaults := by
  intro reg dreg as bw ad i s hi ha h0 h3 h2 hw
  obtain ⟨p, hp, source, -⟩ := plan_hasSource s.carry hi
  exact exec_of_operands_error hp (Operands.run_of_unwritten source ha h0 h3 h2 hw)

/-! ## Faults of the destination and of the stack -/

/-- The handlers that read the destination before anything else. -/
def Handler.ReadsFirst : Handler → Prop
  | .alu _ | .compare _ => True
  | .store _ | .shift _ | .extend | .push | .pushByte | .call => False

/-- The handlers that write their Location before anything else. -/
def Handler.WritesFirst : Handler → Prop
  | .store _ | .shift _ | .extend => True
  | .alu _ | .compare _ | .push | .pushByte | .call => False

/-- The handlers that store a word below SP before anything else. -/
def Handler.PushesFirst : Handler → Prop
  | .push | .pushByte | .call => True
  | .store _ | .shift _ | .extend | .alu _ | .compare _ => False

section
variable {h : Handler} {site : Site} {bw : Width} {o : Operand} {f : Fault}

theorem Handler.run_of_read_error (hh : h.ReadsFirst) (hr : readLoc site o.loc bw o.state = .error f) :
    h.run site bw o = .error f := by
  cases h with
  | alu g | compare g => exact bind_eq_error.2 (.inl hr)
  | _ => cases hh

theorem Handler.run_of_write_error (hh : h.WritesFirst) (hw : ∀ v, writeLoc site o.loc bw v o.state = .error f) :
    h.run site bw o = .error f := by
  cases h with
  | store g => exact hw _
  | shift g | extend => exact bind_eq_error.2 (.inl (hw _))
  | _ => cases hh

theorem Handler.run_of_stack_top (hh : h.PushesFirst) (hsp : o.state.reg 1 - 2 = 0xFFFF) :
    h.run site bw o = .error (.wordAccessAtTop site 0xFFFF) := by
  have full (s : State) (v : Word) (hs : s.reg 1 = o.state.reg 1) :
      pushWord site v s = .error (.wordAccessAtTop site 0xFFFF) :=
    pushWord_eq_error.2 ⟨hs ▸ hsp, by rw [hs, hsp]⟩
  cases h with
  | push => exact full _ _ rfl
  | pushByte => exact full _ _ rfl
  | call => exact bind_eq_error.2 (.inl (full _ _ rfl))
  | _ => cases hh

end

/-- ADD, ADDC, SUBC, SUB and CMP read their destination first. -/
theorem plan_readsFirst {sreg dreg : Reg} {as : Mode} {bw : Width} {ad : DstMode} {i : Instr} (c : Bool)
    (hi : i ∈ [Instr.add sreg as bw ad dreg, .addc sreg as bw ad dreg, .subc sreg as bw ad dreg,
      .sub sreg as bw ad dreg, .cmp sreg as bw ad dreg]) :
    ∃ h, plan c i = some ⟨bw, .binary sreg as ad dreg, h⟩ ∧ h.ReadsFirst := by
  simp only [List.mem_cons, List.not_mem_nil, or_false] at hi
  obtain rfl | rfl | rfl | rfl | rfl := hi <;> exact ⟨_, rfl, trivial⟩

/-- The binary instructions share their operand steps, and first read or first write their destination. -/
theorem plan_binary {sreg dreg : Reg} {as : Mode} {bw : Width} {ad : DstMode} {i : Instr} (c : Bool)
    (hi : i ∈ [Instr.mov sreg as bw ad dreg, .add sreg as bw ad dreg, .addc sreg as bw ad dreg,
      .subc sreg as bw ad dreg, .sub sreg as bw ad dreg, .cmp sreg as bw ad dreg]) :
    ∃ h, plan c i = some ⟨bw, .binary sreg as ad dreg, h⟩ ∧ (h.WritesFirst ∨ h.ReadsFirst) := by
  obtain rfl | hi := List.mem_cons.1 hi
  · exact ⟨_, rfl, .inl trivial⟩
  · obtain ⟨h, hp, reads⟩ := plan_readsFirst c hi
    exact ⟨h, hp, .inr reads⟩

theorem binaryOperands_of_dst_error {site : Site} {sreg dreg : Reg} {as : Mode} {bw : Width} {ad : DstMode} {s : State}
    {f : Fault} (hs : SourceReady as bw sreg s)
    (h : resolve site .dst (dstMode ad) dreg (afterSrc (past s) as sreg) = .error f) :
    binaryOperands site sreg as bw ad dreg s = .error f :=
  bind_eq_error.2 (.inr ⟨_, resolve_src_past_of_ready hs, bind_eq_error.2 (.inr ⟨_, readLoc_eq_ok.2 ⟨hs.readable, rfl⟩,
    bind_eq_error.2 (.inl h)⟩)⟩)

/-- Settles O14: an unwritten destination register faults where the handler reads it, and MOV only writes it; an
unwritten base faults in the operand steps, which all six share. -/
theorem unwrittenDestinationFaultsOnlyWhenRead : Obligations.UnwrittenDestinationFaultsOnlyWhenRead := by
  intro sreg dreg as bw i s hs
  have ready : BinaryReady sreg as bw .register dreg s := ⟨hs, nofun⟩
  refine ⟨fun hw => ⟨fun hi => ?alu, ?mov⟩, fun hw hi => ?base⟩
  case alu =>
    obtain ⟨h, hp, reads⟩ := plan_readsFirst s.carry hi
    exact exec_of_handler_error hp ready (Handler.run_of_read_error reads
      (readLoc_eq_error.2 (.inl ⟨dreg, rfl, hw, rfl⟩)))
  case mov => exact ⟨_, exec_of_ready (i := .mov sreg as bw .register dreg) rfl ready trivial⟩
  case base =>
    obtain ⟨h, hp, -⟩ := plan_binary s.carry hi
    have h0 : dreg ≠ 0 := by
      rintro rfl
      have marked : (binaryTable sreg as bw .indexed 0 s).state.isWritten 0 = true :=
        isWritten_afterDst pc_written_afterSrc
      simp [marked] at hw
    have unwritten : (afterSrc (past s) as sreg).isWritten dreg = false := (afterDst_other h0).2.symm.trans hw
    exact exec_of_operands_error hp (binaryOperands_of_dst_error hs
      (resolve_dst_of_unwritten (aligned_afterSrc.2 (aligned_past.2 hs.aligned)) h0 unwritten))

/-- Settles O19: the source is read in the operand steps, the destination is first read or first written by the
handler, and the stack word is stored first. -/
theorem wordAccessAtTopFaults : Obligations.WordAccessAtTopFaults := by
  refine ⟨fun site v s => ⟨loadMem_eq_error.2 ⟨rfl, rfl, rfl⟩, storeMem_eq_error.2 ⟨rfl, rfl, rfl⟩⟩, ?source, ?dst,
    ?stack⟩
  case source =>
    intro reg dreg as ad i s hi ha hb hl
    obtain ⟨p, hp, source, width⟩ := plan_hasSource s.carry hi
    have base : BaseWritten (past s) (srcBase as reg) := fun r hr => isWritten_past (hb r hr)
    have resolved := resolve_src_of_ready (site := siteOf i s) base fun _ _ => aligned_past.2 ha
    rw [hl] at resolved
    exact exec_of_operands_error hp (Operands.run_of_read_error source resolved
      (readLoc_eq_error.2 (.inr ⟨rfl, width rfl, rfl⟩)))
  case dst =>
    intro sreg dreg as ad i s hi ready hl
    obtain ⟨h, hp, writes | reads⟩ := plan_binary s.carry hi
    · exact exec_of_handler_error hp ready (Handler.run_of_write_error writes fun _ =>
        writeLoc_eq_error.2 (.inl ⟨hl, rfl, rfl⟩))
    · exact exec_of_handler_error hp ready (Handler.run_of_read_error reads
        (readLoc_eq_error.2 (.inr ⟨hl, rfl, rfl⟩)))
  case stack =>
    intro as bw reg i s hi ready hsp
    have plan_pushes : ∃ h, plan s.carry i = some ⟨bw, .unary as reg, h⟩ ∧ h.PushesFirst := by
      obtain rfl | ⟨rfl, rfl⟩ := hi
      · cases bw <;> exact ⟨_, rfl, trivial⟩
      · exact ⟨_, rfl, trivial⟩
    obtain ⟨h, hp, pushes⟩ := plan_pushes
    exact exec_of_handler_error hp ready (Handler.run_of_stack_top pushes (by
      change (unaryTable as bw reg s).state.reg 1 - 2 = 0xFFFF
      rw [hsp]
      rfl))

/-! ## A constant as a destination (40_operand_resolver.md R89) -/

theorem unaryOperand_of_constant {as : Mode} {reg : Reg} {v : Word} (h : constantOf reg as = some v) (site : Site)
    (bw : Width) (s : State) : unaryOperand site as bw reg s = .ok ⟨v &&& mask bw, .const v, past s⟩ :=
  unaryOperand_eq_ok.2 ⟨resolve_src_of_constant h site (past s), rfl⟩

/-- Settles O28: the operand reads as its constant, and the handler's first act is to write it. -/
theorem writeToConstantOperandFaults : Obligations.WriteToConstantOperandFaults := by
  intro as bw reg i s hi hc
  obtain ⟨v, constant⟩ : ∃ v, constantOf reg as = some v := by
    obtain rfl | ⟨rfl, rfl | rfl⟩ := hc
    · cases as <;> exact ⟨_, rfl⟩
    · exact ⟨_, rfl⟩
    · exact ⟨_, rfl⟩
  obtain ⟨w, h, hp, writes⟩ : ∃ w h, plan s.carry i = some ⟨w, .unary as reg, h⟩ ∧ h.WritesFirst := by
    simp only [List.mem_cons, List.not_mem_nil, or_false] at hi
    obtain rfl | rfl | rfl | rfl := hi <;> exact ⟨_, _, rfl, trivial⟩
  have operand := unaryOperand_of_constant constant (siteOf i s) w s
  have refused := Handler.run_of_write_error (site := siteOf i s) (bw := w) (o := ⟨v &&& mask w, .const v, past s⟩)
    writes fun _ => rfl
  rw [exec_eq_plan hp, finish_eq_fault]
  exact bind_eq_error.2 (.inr ⟨_, operand, refused⟩)

end Sys2Proof.Machine
end

section
/-!
PROOFS. What an instruction leaves unchanged (42_binary.md R106-R113, 43_unary.md R116-R127): the frames of the eight
handlers and of the operand tables, and from them the PC of a completed instruction and the four frame statements.
-/

namespace Sys2Proof.Machine

open Sys2Proof Sys2Proof.Safety

/-! ## Writing a Location -/

section
variable {s : State} {l : Location} {w : Width} {v : Word} {q : Reg}

theorem putAt_other (h : l ≠ .reg q) :
    (putAt s l w v).reg q = s.reg q ∧ (putAt s l w v).isWritten q = s.isWritten q := by
  cases l with
  | reg r =>
    have hq : q ≠ r := fun e => h (e ▸ rfl)
    cases w <;> simp [putAt, hq]
  | mem a => cases w <;> exact ⟨rfl, rfl⟩
  | const c => cases w <;> exact ⟨rfl, rfl⟩

theorem draws_putAt : (putAt s l w v).draws = s.draws := by cases l <;> cases w <;> rfl

theorem byteAt_putAt {b : Word} (h : ∀ a, l = .mem a → b ≠ a ∧ (w = .word → b ≠ a + 1)) :
    (putAt s l w v).byteAt b = s.byteAt b := by
  cases l with
  | reg r => cases w <;> rfl
  | mem a =>
    obtain ⟨hb, hb1⟩ := h a rfl
    cases w with
    | word => exact byteAt_setWord_ne hb (hb1 rfl)
    | byte => exact byteAt_setByte_ne hb
  | const c => cases w <;> rfl

end

theorem pushed_other {s : State} {v : Word} {q : Reg} (h : q ≠ 1) :
    (pushed s v).reg q = s.reg q ∧ (pushed s v).isWritten q = s.isWritten q := by
  simp [pushed, h]

theorem byteAt_pushed {s : State} {v b : Word} (h0 : b ≠ s.reg 1 - 2) (h1 : b ≠ s.reg 1 - 2 + 1) :
    (pushed s v).byteAt b = s.byteAt b := byteAt_setWord_ne h0 h1

/-- The bits of R2 that are no flag (10_state.md R23, R24). -/
theorem flagsInto_other {sr : Word} {c z n : Bool} {v : Option Bool} {k : Nat} (h0 : k ≠ 0) (h1 : k ≠ 1) (h2 : k ≠ 2)
    (h8 : k ≠ 8) : (flagsInto sr c z n v).getLsbD k = sr.getLsbD k := by
  simp [getLsbD_flagsInto, h0, h1, h2, h8]

/-! ## The handlers -/

/-- The registers a handler may change besides the flags of R2. -/
def Handler.Writes (o : Operand) (q : Reg) : Handler → Prop
  | .store _ | .alu _ | .shift _ | .extend => o.loc = .reg q
  | .compare _ => False
  | .push | .pushByte => q = 1
  | .call => q = 0 ∨ q = 1

/-- The bytes a handler may change. -/
def Handler.Touches (bw : Width) (o : Operand) (b : Word) : Handler → Prop
  | .store _ | .alu _ | .shift _ | .extend => ∃ a, o.loc = .mem a ∧ (b = a ∨ (bw = .word ∧ b = a + 1))
  | .compare _ => False
  | .push | .pushByte | .call => b = o.state.reg 1 - 2 ∨ b = o.state.reg 1 - 2 + 1

/-- The handlers that name no flag. -/
def Handler.KeepsFlags : Handler → Prop
  | .store _ | .push | .pushByte | .call => True
  | .alu _ | .compare _ | .shift _ | .extend => False

/-- The handlers that write the operand's Location. -/
def Handler.WritesLoc : Handler → Prop
  | .store _ | .alu _ | .shift _ | .extend => True
  | .compare _ | .push | .pushByte | .call => False

/-- How many free bytes a handler draws (43_unary.md R124). -/
def Handler.draws : Handler → Nat
  | .pushByte => 1
  | .store _ | .alu _ | .compare _ | .shift _ | .extend | .push | .call => 0

section
variable {h : Handler} {bw : Width} {o : Operand} {q : Reg}

/-- A register that a handler does not write, R2 only where it names no flag. -/
theorem Handler.result_other (hf : q = 2 → h.KeepsFlags) (hq : ¬ h.Writes o q) :
    (h.result bw o).reg q = o.state.reg q ∧ (h.result bw o).isWritten q = o.state.isWritten q := by
  cases h with
  | store f => exact putAt_other hq
  | alu f | shift f | extend =>
    have h2 : q ≠ 2 := hf
    simp only [result, reg_setFlags, isWritten_setFlags, if_neg h2]
    exact putAt_other hq
  | compare f =>
    have h2 : q ≠ 2 := hf
    simp [result, h2]
  | push => exact pushed_other hq
  | pushByte => exact pushed_other (s := (draw8 o.state).2) hq
  | call =>
    obtain ⟨h0, h1⟩ := not_or.1 hq
    simp only [result, reg_setReg, isWritten_setReg, if_neg h0]
    exact pushed_other h1

/-- A handler that does not write R2 keeps every bit of it but the flags. -/
theorem Handler.result_sr (hq : ¬ h.Writes o 2) {k : Nat} (h0 : k ≠ 0) (h1 : k ≠ 1) (h2 : k ≠ 2) (h8 : k ≠ 8) :
    ((h.result bw o).reg 2).getLsbD k = (o.state.reg 2).getLsbD k := by
  cases h with
  | store f => rw [result, (putAt_other hq).1]
  | alu f | shift f | extend =>
    rw [result, reg_setFlags, if_pos rfl, flagsInto_other h0 h1 h2 h8, (putAt_other hq).1]
  | compare f => rw [result, reg_setFlags, if_pos rfl, flagsInto_other h0 h1 h2 h8]
  | push | pushByte | call => rw [(result_other (fun _ => by trivial) hq).1]

theorem Handler.draws_result : (h.result bw o).draws = o.state.draws + h.draws := by
  cases h with
  | store f | alu f | shift f | extend => exact draws_putAt
  | compare f | push | pushByte | call => rfl

theorem Handler.byteAt_result {b : Word} (hb : ¬ h.Touches bw o b) : (h.result bw o).byteAt b = o.state.byteAt b := by
  cases h with
  | store f | alu f | shift f | extend =>
    refine byteAt_putAt fun a ha => ?_
    have outside := fun hab => hb ⟨a, ha, hab⟩
    exact ⟨fun e => outside (.inl e), fun hw e => outside (.inr ⟨hw, e⟩)⟩
  | compare f => rfl
  | push | pushByte | call =>
    obtain ⟨h0, h1⟩ := not_or.1 hb
    exact byteAt_pushed h0 h1

end
section
variable {h : Handler} {bw : Width} {o : Operand}

theorem Handler.loc_of_writes (hh : h.WritesLoc) {q : Reg} (hq : h.Writes o q) : o.loc = .reg q := by
  cases h with
  | store | alu | shift | extend => exact hq
  | compare | push | pushByte | call => cases hh

theorem Handler.draws_of_writesLoc (hh : h.WritesLoc) : h.draws = 0 := by
  cases h with
  | pushByte => cases hh
  | _ => rfl

theorem Handler.not_touches (hh : h.WritesLoc) {b : Word}
    (hb : ∀ a, o.loc = .mem a → b ≠ a ∧ (bw = .word → b ≠ a + 1)) : ¬ h.Touches bw o b := by
  cases h with
  | store | alu | shift | extend =>
    rintro ⟨a, ha, e | ⟨hw, e⟩⟩
    · exact (hb a ha).1 e
    · exact (hb a ha).2 hw e
  | compare | push | pushByte | call => cases hh

/-- SXT does not name V (43_unary.md R121). -/
theorem Handler.overflow_extend (hl : o.loc ≠ .reg 2) :
    ((Handler.extend.result bw o).reg 2).getLsbD 8 = (o.state.reg 2).getLsbD 8 := by
  rw [result, reg_setFlags, if_pos rfl, getLsbD_flagsInto, (putAt_other hl).1]
  rfl

end

/-! ## The tables -/

theorem loc_of_srcLocation {s : State} {as : Mode} {reg q : Reg} (h : srcLocation s as reg = .reg q) :
    as = .register ∧ reg = q := by
  unfold srcLocation at h
  by_cases h3 : reg = 3
  · rw [if_pos h3] at h
    cases as <;> cases h
  rw [if_neg h3] at h
  by_cases h2 : reg = 2
  · rw [if_pos h2] at h
    cases as with
    | register => exact ⟨rfl, h2.trans (Location.reg.inj h)⟩
    | indexed | indirect | postInc => cases h
  · rw [if_neg h2] at h
    cases as with
    | register => exact ⟨rfl, Location.reg.inj h⟩
    | indexed | indirect | postInc => cases h

theorem loc_of_dstLocation {s : State} {ad : DstMode} {reg q : Reg} (h : dstLocation s ad reg = .reg q) :
    ad = .register ∧ reg = q := by
  cases ad with
  | register => exact ⟨rfl, Location.reg.inj h⟩
  | indexed => cases h

section
variable {p : Operands} {bw : Width} {s : State} {as : Mode} {reg q : Reg}

/-- The operand steps move no register but the PC and the one of mode 3. -/
theorem Operands.table_other (hs : p.HasSource as reg) (h0 : q ≠ 0)
    (h : ¬ (as = .postInc ∧ q = reg ∧ q ≠ 2 ∧ q ≠ 3)) :
    (p.table bw s).state.reg q = s.reg q ∧ (p.table bw s).state.isWritten q = s.isWritten q := by
  have source : (afterSrc (past s) as reg).reg q = s.reg q ∧
      (afterSrc (past s) as reg).isWritten q = s.isWritten q := by
    obtain ⟨value, mark⟩ := afterSrc_other (s := past s) h0 h
    exact ⟨value.trans (by simp [h0]), mark.trans (by simp [h0])⟩
  cases p with
  | unary =>
    obtain ⟨rfl, rfl⟩ := hs
    exact source
  | binary =>
    obtain ⟨rfl, rfl⟩ := hs
    obtain ⟨value, mark⟩ := afterDst_other (s := afterSrc (past s) _ _) h0
    exact ⟨value.trans source.1, mark.trans source.2⟩

/-- Mode 3 moves an ordinary register by 1 (40_operand_resolver.md R80). -/
theorem Operands.table_postInc (hs : p.HasSource .postInc reg) (h0 : reg ≠ 0) (h2 : reg ≠ 2) (h3 : reg ≠ 3) :
    (p.table bw s).state.reg reg = s.reg reg + 1 := by
  have source : (afterSrc (past s) .postInc reg).reg reg = s.reg reg + 1 :=
    (afterSrc_postInc h0 h2 h3).trans (by simp [h0])
  cases p with
  | unary =>
    obtain ⟨rfl, rfl⟩ := hs
    exact source
  | binary =>
    obtain ⟨rfl, rfl⟩ := hs
    exact (afterDst_other h0).1.trans source

/-- The operand steps leave every byte of memory. -/
theorem Operands.byteAt_table (b : Word) : (p.table bw s).state.byteAt b = s.byteAt b := by
  rw [State.byteAt, mem_table]
  rfl

end

/-! ## A completed instruction -/

section
variable {i : Instr} {s t : State} {p : Plan} {as : Mode} {reg q : Reg}

theorem exec_other (hp : plan s.carry i = some p) (h : exec i s = .next t) (hs : p.operands.HasSource as reg)
    (h0 : q ≠ 0) (hf : q = 2 → p.handler.KeepsFlags) (hw : ¬ p.handler.Writes (p.operands.table p.width s) q)
    (hm : ¬ (as = .postInc ∧ q = reg ∧ q ≠ 2 ∧ q ≠ 3)) : t.reg q = s.reg q ∧ t.isWritten q = s.isWritten q := by
  obtain ⟨-, -, rfl⟩ := exec_of_plan_eq_next hp h
  obtain ⟨value, mark⟩ := Handler.result_other (bw := p.width) hf hw
  obtain ⟨value', mark'⟩ := Operands.table_other (bw := p.width) (s := s) hs h0 hm
  exact ⟨value.trans value', mark.trans mark'⟩

theorem exec_postInc (hp : plan s.carry i = some p) (h : exec i s = .next t) (hs : p.operands.HasSource .postInc reg)
    (h0 : reg ≠ 0) (h2 : reg ≠ 2) (h3 : reg ≠ 3) (hw : ¬ p.handler.Writes (p.operands.table p.width s) reg) :
    t.reg reg = s.reg reg + 1 := by
  obtain ⟨-, -, rfl⟩ := exec_of_plan_eq_next hp h
  exact (Handler.result_other (fun e => absurd e h2) hw).1.trans (Operands.table_postInc hs h0 h2 h3)

theorem exec_sr (hp : plan s.carry i = some p) (h : exec i s = .next t) (hs : p.operands.HasSource as reg)
    (hw : ¬ p.handler.Writes (p.operands.table p.width s) 2) {k : Nat} (h0 : k ≠ 0) (h1 : k ≠ 1) (h2 : k ≠ 2)
    (h8 : k ≠ 8) : (t.reg 2).getLsbD k = (s.reg 2).getLsbD k := by
  obtain ⟨-, -, rfl⟩ := exec_of_plan_eq_next hp h
  rw [Handler.result_sr hw h0 h1 h2 h8, (Operands.table_other hs (by decide) (by simp)).1]

theorem exec_draws (hp : plan s.carry i = some p) (h : exec i s = .next t) :
    t.draws = s.draws + p.handler.draws := by
  obtain ⟨-, -, rfl⟩ := exec_of_plan_eq_next hp h
  rw [Handler.draws_result, Operands.draws_table]

theorem exec_byteAt (hp : plan s.carry i = some p) (h : exec i s = .next t) {b : Word}
    (hb : ¬ p.handler.Touches p.width (p.operands.table p.width s) b) : t.byteAt b = s.byteAt b := by
  obtain ⟨-, -, rfl⟩ := exec_of_plan_eq_next hp h
  rw [Handler.byteAt_result hb, Operands.byteAt_table]

end

/-! ## The PC of a completed instruction (10_state.md R18, 30_encoding.md R65) -/

/-- After the operand steps the PC is past the words of the instruction. -/
theorem pc_table {c : Bool} {i : Instr} {p : Plan} {s : State} (hp : plan c i = some p) :
    (p.operands.table p.width s).state.reg 0 = s.reg 0 + BitVec.ofNat 16 i.length := by
  cases i with
  | mov | add | addc | subc | sub | cmp => cases hp; exact pc_binaryTable ..
  | rrc | rra => cases hp; exact pc_unaryTable ..
  | swpb bw | sxt bw | push bw | call bw =>
    cases bw <;> cases hp
    all_goals exact pc_unaryTable ..
  | _ => cases hp

/-- An instruction outside R19's list has a handler that does not write R0. -/
theorem not_writes_pc {c : Bool} {i : Instr} {p : Plan} {s : State} (hp : plan c i = some p)
    (hi : writesPc i = false) : ¬ p.handler.Writes (p.operands.table p.width s) 0 := by
  cases i with
  | mov | add | addc | subc | sub =>
    cases hp
    intro h
    obtain ⟨rfl, rfl⟩ := loc_of_dstLocation h
    cases hi
  | cmp => cases hp; exact id
  | rrc | rra =>
    cases hp
    intro h
    obtain ⟨rfl, rfl⟩ := loc_of_srcLocation h
    cases hi
  | swpb bw | sxt bw =>
    cases bw <;> cases hp
    intro h
    obtain ⟨rfl, rfl⟩ := loc_of_srcLocation h
    cases hi
  | push bw =>
    cases bw <;> cases hp
    all_goals exact nofun
  | call => cases hi
  | _ => cases hp

/-- Settles O7: the operand steps move the PC past the words, and the handler leaves it there. -/
theorem completedInstructionMovesPcByItsLength : Obligations.CompletedInstructionMovesPcByItsLength := by
  intro i s t h hpc
  obtain ⟨p, hp, rfl⟩ := exec_eq_next h
  rw [(Handler.result_other (q := 0) (by simp) (not_writes_pc hp hpc)).1, pc_table hp]

/-! ## The frames -/

/-- Settles O53: MOV and the four ALU instructions write one Location, and only MOV names no flag. -/
theorem binaryWriteBackFrame : Obligations.BinaryWriteBackFrame := by
  intro sreg as bw ad dreg i s t hi h
  obtain ⟨handler, hp, writesLoc, keeps⟩ : ∃ handler, plan s.carry i = some ⟨bw, .binary sreg as ad dreg, handler⟩ ∧
      handler.WritesLoc ∧ (i = .mov sreg as bw ad dreg → handler.KeepsFlags) := by
    simp only [List.mem_cons, List.not_mem_nil, or_false] at hi
    obtain rfl | rfl | rfl | rfl | rfl := hi
    · exact ⟨_, rfl, trivial, fun _ => trivial⟩
    all_goals exact ⟨_, rfl, trivial, nofun⟩
  have unwritten {q : Reg} (hq : ¬ (ad = .register ∧ q = dreg)) :
      ¬ handler.Writes (binaryTable sreg as bw ad dreg s) q := fun hw => by
    obtain ⟨had, rfl⟩ := loc_of_dstLocation (Handler.loc_of_writes writesLoc hw)
    exact hq ⟨had, rfl⟩
  refine ⟨fun q h0 h2 hd hm => ?other, ?postInc, fun hd => ⟨fun hmov => ?mov, fun k => ?flags⟩, ?draws,
    fun o ho b hb => ?bytes⟩
  case other =>
    exact exec_other hp h ⟨rfl, rfl⟩ h0 (fun e => absurd e h2) (unwritten hd) fun ⟨e, e', _, e3⟩ => hm ⟨e, e', e3⟩
  case postInc =>
    rintro rfl h0 h2 h3 hd
    exact exec_postInc hp h ⟨rfl, rfl⟩ h0 h2 h3 (unwritten hd)
  case mov =>
    exact (exec_other hp h ⟨rfl, rfl⟩ (by decide) (fun _ => keeps hmov) (unwritten fun e => hd ⟨e.1, e.2.symm⟩)
      (by simp)).1
  case flags => exact exec_sr hp h ⟨rfl, rfl⟩ (unwritten fun e => hd ⟨e.1, e.2.symm⟩)
  case draws => rw [exec_draws hp h, Handler.draws_of_writesLoc writesLoc, Nat.add_zero]
  case bytes =>
    obtain ⟨rfl, -⟩ := binaryOperands_eq_table ho
    exact exec_byteAt hp h (Handler.not_touches writesLoc hb)

/-- Settles O54: CMP's handler writes no register, touches no byte and draws nothing. -/
theorem cmpFrame : Obligations.CmpFrame := by
  intro sreg as bw ad dreg s t h
  have hp : plan s.carry (.cmp sreg as bw ad dreg) =
    some ⟨bw, .binary sreg as ad dreg, .compare fun v dv => subWithCarry bw v dv true⟩ := rfl
  refine ⟨fun q h0 h2 hm => ?other, ?postInc, fun k => exec_sr hp h ⟨rfl, rfl⟩ id, exec_draws hp h,
    fun b => exec_byteAt hp h id⟩
  case other => exact exec_other hp h ⟨rfl, rfl⟩ h0 (fun e => absurd e h2) id fun ⟨e, e', _, e3⟩ => hm ⟨e, e', e3⟩
  case postInc =>
    rintro rfl h0 h2 h3
    exact exec_postInc hp h ⟨rfl, rfl⟩ h0 h2 h3 id

/-- Settles O55: the four write their operand's Location, SWPB names no flag, and SXT does not name V. -/
theorem unaryWriteBackFrame : Obligations.UnaryWriteBackFrame := by
  intro bw as reg i s t hi h
  obtain ⟨handler, hp, writesLoc, swpb, sxt⟩ : ∃ handler, plan s.carry i = some ⟨bw, .unary as reg, handler⟩ ∧
      handler.WritesLoc ∧ (i = .swpb bw as reg → handler.KeepsFlags) ∧ (i = .sxt bw as reg → handler = .extend) := by
    obtain ⟨p, hp, -⟩ := exec_eq_next h
    simp only [List.mem_cons, List.not_mem_nil, or_false] at hi
    obtain rfl | rfl | rfl | rfl := hi
    · exact ⟨_, rfl, trivial, nofun, nofun⟩
    · cases bw <;> cases hp
      exact ⟨_, rfl, trivial, fun _ => trivial, nofun⟩
    · exact ⟨_, rfl, trivial, nofun, nofun⟩
    · cases bw <;> cases hp
      exact ⟨_, rfl, trivial, nofun, fun _ => rfl⟩
  have elsewhere {q : Reg} (hq : ¬ (as = .register ∧ q = reg)) : (unaryTable as bw reg s).loc ≠ .reg q := fun hl => by
    obtain ⟨has, rfl⟩ := loc_of_srcLocation hl
    exact hq ⟨has, rfl⟩
  have unwritten {q : Reg} (hq : ¬ (as = .register ∧ q = reg)) : ¬ handler.Writes (unaryTable as bw reg s) q :=
    fun hw => elsewhere hq (Handler.loc_of_writes writesLoc hw)
  refine ⟨fun q h0 h2 hd hm => ?other, ?postInc, fun hd => ⟨fun hi => ?swpb, fun hi => ?sxt, fun k => ?flags⟩, ?draws,
    fun o ho b hb => ?bytes⟩
  case other =>
    exact exec_other hp h ⟨rfl, rfl⟩ h0 (fun e => absurd e h2) (unwritten hd) fun ⟨e, e', _, e3⟩ => hm ⟨e, e', e3⟩
  case postInc =>
    rintro rfl h0 h2 h3
    exact exec_postInc hp h ⟨rfl, rfl⟩ h0 h2 h3 (unwritten fun e => nomatch e.1)
  case swpb =>
    exact (exec_other hp h ⟨rfl, rfl⟩ (by decide) (fun _ => swpb hi) (unwritten fun e => hd ⟨e.1, e.2.symm⟩)
      (by simp)).1
  case sxt =>
    obtain rfl := sxt hi
    obtain ⟨-, -, rfl⟩ := exec_of_plan_eq_next hp h
    have moved := (Operands.table_other (p := .unary as reg) (bw := bw) (s := s) (q := 2) ⟨rfl, rfl⟩ (by decide)
      (by simp)).1
    exact (Handler.overflow_extend (elsewhere fun e => hd ⟨e.1, e.2.symm⟩)).trans (congrArg (BitVec.getLsbD · 8) moved)
  case flags => exact exec_sr hp h ⟨rfl, rfl⟩ (unwritten fun e => hd ⟨e.1, e.2.symm⟩)
  case draws => rw [exec_draws hp h, Handler.draws_of_writesLoc writesLoc, Nat.add_zero]
  case bytes =>
    obtain ⟨rfl, -⟩ := unaryOperand_eq_table ho
    exact exec_byteAt hp h (Handler.not_touches writesLoc hb)

/-- The handlers of the stack leave SP two lower (43_unary.md R122). -/
theorem Handler.sp_result {h : Handler} {bw : Width} {o : Operand} (hh : h.PushesFirst) :
    (h.result bw o).reg 1 = o.state.reg 1 - 2 := by
  cases h with
  | push | pushByte | call => simp [result, pushed]
  | _ => cases hh

/-- The handlers of the stack write SP and the PC, touch the word below the old SP, and name no flag. -/
theorem Handler.stack_frame {h : Handler} (hh : h.PushesFirst) :
    h.KeepsFlags ∧ (∀ o q, h.Writes o q → q = 0 ∨ q = 1) ∧
      ∀ bw o b, h.Touches bw o b → b = o.state.reg 1 - 2 ∨ b = o.state.reg 1 - 2 + 1 := by
  cases h with
  | push | pushByte => exact ⟨trivial, fun _ _ => .inr, fun _ _ _ => id⟩
  | call => exact ⟨trivial, fun _ _ => id, fun _ _ _ => id⟩
  | _ => cases hh

/-- Where SP stands after the operand steps: only `@SP+` moves it. -/
theorem sp_unaryTable (as : Mode) (bw : Width) (reg : Reg) (s : State) :
    (unaryTable as bw reg s).state.reg 1 = if as = .postInc ∧ reg = 1 then s.reg 1 + 1 else s.reg 1 := by
  split_ifs with h
  · obtain ⟨rfl, rfl⟩ := h
    exact Operands.table_postInc (p := .unary .postInc 1) ⟨rfl, rfl⟩ (by decide) (by decide) (by decide)
  · exact (Operands.table_other (p := .unary as reg) ⟨rfl, rfl⟩ (by decide) fun ⟨e, e', _⟩ => h ⟨e, e'.symm⟩).1

/-- Settles O56: the three stack handlers write SP, the word below it and, for CALL, the PC; PUSH.B alone draws. -/
theorem stackFrame : Obligations.StackFrame := by
  intro bw as reg i s t hi h
  obtain ⟨handler, hp, pushes, draws⟩ : ∃ handler, plan s.carry i = some ⟨bw, .unary as reg, handler⟩ ∧
      handler.PushesFirst ∧ handler.draws = if i = .push .byte as reg then 1 else 0 := by
    obtain ⟨p, hp, -⟩ := exec_eq_next h
    simp only [List.mem_cons, List.not_mem_nil, or_false] at hi
    obtain rfl | rfl := hi
    · cases bw with
      | word => exact ⟨_, rfl, trivial, rfl⟩
      | byte => exact ⟨_, rfl, trivial, (if_pos rfl).symm⟩
    · cases bw <;> cases hp
      exact ⟨_, rfl, trivial, rfl⟩
  obtain ⟨keeps, writes, touches⟩ := Handler.stack_frame pushes
  refine ⟨fun q h0 h1 hm => ?other, ?postInc, ?sp, ?draws, fun o ho b hb hb1 => ?bytes⟩
  case other =>
    exact exec_other hp h ⟨rfl, rfl⟩ h0 (fun _ => keeps) (fun hw => (writes _ _ hw).elim h0 h1) hm
  case postInc =>
    rintro rfl h0 h1 h2 h3
    exact exec_postInc hp h ⟨rfl, rfl⟩ h0 h2 h3 fun hw => (writes _ _ hw).elim h0 h1
  case sp =>
    obtain ⟨-, -, rfl⟩ := exec_of_plan_eq_next hp h
    exact (Handler.sp_result pushes).trans (congrArg (· - 2) (sp_unaryTable as bw reg s))
  case draws =>
    rw [exec_draws hp h, draws]
    split_ifs <;> rfl
  case bytes =>
    obtain ⟨rfl, -⟩ := unaryOperand_eq_table ho
    exact exec_byteAt hp h fun ht => (touches _ _ _ ht).elim hb hb1

end Sys2Proof.Machine
end

section
/-!
PROOFS. The laws of addition and subtraction (41_alu.md R103, R104), each from the exact sum behind the ALU's answer
and the definitions of its flags.
-/

namespace Sys2Proof.Machine

open Sys2Proof Sys2Proof.Safety

/-- The low bits of the ALU's result are the exact sum modulo the width. -/
theorem low_result (w : Width) (src dst : Word) (cin : Bool) :
    low w (addWithCarry w src dst cin).result = (low w src + low w dst + cin.toNat) % 2 ^ bits w := by
  rw [low, toNat_result, Nat.mod_mod]

/-- V as the sign bits have it, in numbers: both operands in the same half of the range, the result in the other. -/
theorem addWithCarry_v_iff (w : Width) (src dst : Word) (cin : Bool) :
    (addWithCarry w src dst cin).v = true ↔
      (2 ^ (bits w - 1) ≤ low w src ↔ 2 ^ (bits w - 1) ≤ low w dst) ∧
        ¬ (2 ^ (bits w - 1) ≤ (low w src + low w dst + cin.toNat) % 2 ^ bits w ↔ 2 ^ (bits w - 1) ≤ low w dst) := by
  rw [addWithCarry_v, Bool.and_eq_true, beq_iff_eq, Bool.xor_iff_ne, ne_eq,
    Bool.eq_iff_iff (a := src.getLsbD _), Bool.eq_iff_iff (a := (addWithCarry w src dst cin).result.getLsbD _),
    getLsbD_sign_iff, getLsbD_sign_iff, getLsbD_sign_iff, low_result]

/-- Signed overflow of a sum, in numbers: `half` is half the range of the width. -/
theorem signed_sum_out_of_range_iff {half s d : Nat} {c : Nat} (hs : s < 2 * half) (hd : d < 2 * half) (hc : c ≤ 1) :
    ((half ≤ s ↔ half ≤ d) ∧ ¬ (half ≤ (s + d + c) % (2 * half) ↔ half ≤ d)) ↔
      ¬ (-(half : Int) ≤ (if s < half then (s : Int) else s - (2 * half : Nat)) +
          (if d < half then (d : Int) else d - (2 * half : Nat)) + c ∧
        (if s < half then (s : Int) else s - (2 * half : Nat)) +
          (if d < half then (d : Int) else d - (2 * half : Nat)) + c ≤ half - 1) := by
  have wrapped : (s + d + c) % (2 * half) = if s + d + c < 2 * half then s + d + c else s + d + c - 2 * half := by
    split_ifs with h
    · exact Nat.mod_eq_of_lt h
    · rw [Nat.mod_eq_sub_mod (by omega), Nat.mod_eq_of_lt (by omega)]
  rw [wrapped]
  split_ifs <;> omega

/-- Settles O30: the sum of the signed values leaves the range exactly when both lie in one half and the sum wraps into
the other. -/
theorem addOverflowIsSignedOverflow : Obligations.AddOverflowIsSignedOverflow := by
  intro w src dst cin
  have hs := low_lt w src
  have hd := low_lt w dst
  have hc := cin.toNat_le
  rw [addWithCarry_v_iff]
  cases w with
  | byte => exact signed_sum_out_of_range_iff (half := 128) hs hd hc
  | word => exact signed_sum_out_of_range_iff (half := 32768) hs hd hc

/-! ## Subtraction -/

/-- The masked complement, as a number. -/
theorem low_complement (w : Width) (v : Word) : low w (~~~v &&& mask w) = 2 ^ bits w - 1 - low w v := by
  rw [low, toNat_and_mask, low, Nat.mod_mod, BitVec.toNat_not, low]
  cases w <;> simp only [bits] <;> omega

/-- The masked complement, as a signed number. -/
theorem signed_complement (w : Width) (v : Word) : signed w (~~~v &&& mask w) = -signed w v - 1 := by
  have hv := low_lt w v
  simp only [signed, low_complement]
  cases w <;> simp only [bits] at * <;> split_ifs <;> omega

/-- The exact sum behind a subtraction: one range more than the difference, less the borrow of the complement. -/
theorem toNat_subWithCarry_result (w : Width) (src dst : Word) (cin : Bool) :
    ((subWithCarry w src dst cin).result.toNat : Int) =
      ((low w dst : Int) - low w src - 1 + cin.toNat) % 2 ^ bits w := by
  have hs := low_lt w src
  rw [subWithCarry, toNat_result, low_complement]
  cases w <;> simp only [bits] at * <;> omega

/-- C after a subtraction is no borrow (41_alu.md R104). -/
theorem subWithCarry_c_iff (w : Width) (src dst : Word) (cin : Bool) :
    (subWithCarry w src dst cin).c = true ↔ low w src + 1 ≤ low w dst + cin.toNat := by
  have hs := low_lt w src
  obtain ⟨-, -, -, carry, -⟩ := aluFlagsFollowTheirDefinitions w (~~~src &&& mask w) dst cin
  rw [subWithCarry, carry, low_complement]
  omega

/-- Settles O32: the complement contributes one range less 1 less the source to the exact sum. -/
theorem subtractWithCarryLaws : Obligations.SubtractWithCarryLaws := fun w src dst cin =>
  ⟨toNat_subWithCarry_result w src dst cin, subWithCarry_c_iff w src dst cin⟩

/-- Z after SUB or CMP is equality of the operands at the width. -/
theorem subWithCarry_z_iff (w : Width) (src dst : Word) :
    (subWithCarry w src dst true).z = true ↔ low w dst = low w src := by
  have hs := low_lt w src
  have hd := low_lt w dst
  obtain ⟨-, -, zero, -⟩ := aluFlagsFollowTheirDefinitions w (~~~src &&& mask w) dst true
  rw [subWithCarry, zero, low_complement]
  cases w <;> simp only [bits, Bool.toNat_true] at * <;> omega

/-- Settles O31: SUBC's laws at carry-in 1, and V as the signed overflow of the sum with the complement. -/
theorem subtractionLaws : Obligations.SubtractionLaws := by
  intro w src dst r
  refine ⟨rfl, ?result, ?carry, subWithCarry_z_iff w src dst, ?overflow⟩
  case result => simpa [r] using toNat_subWithCarry_result w src dst true
  case carry => simpa [r] using subWithCarry_c_iff w src dst true
  case overflow =>
    have difference :
        signed w (~~~src &&& mask w) + signed w dst + (true.toNat : Nat) = signed w dst - signed w src := by
      rw [signed_complement, Bool.toNat_true]
      omega
    rw [← difference]
    exact addOverflowIsSignedOverflow w (~~~src &&& mask w) dst true

/-- Settles O33: the difference of equal values is 0, with no borrow and no overflow. -/
theorem subtractSelfIsZero : Obligations.SubtractSelfIsZero := by
  intro w x
  obtain ⟨-, value, carry, zero, overflow⟩ := subtractionLaws w x x
  have hr : (subWithCarry w x x true).result = 0 := by
    rw [sub_self, Int.zero_emod] at value
    exact BitVec.eq_of_toNat_eq (by exact_mod_cast value)
  have hn : (subWithCarry w x x true).n = false := by
    rw [subWithCarry, addWithCarry_n, ← subWithCarry, hr]
    exact BitVec.getLsbD_zero
  have hv : (subWithCarry w x x true).v = false := by
    rw [Bool.eq_false_iff, ne_eq, overflow, not_not, sub_self, InSignedRange]
    cases w <;> decide
  calc subWithCarry w x x true
    _ = ⟨(subWithCarry w x x true).result, (subWithCarry w x x true).c, (subWithCarry w x x true).z,
          (subWithCarry w x x true).n, (subWithCarry w x x true).v⟩ := rfl
    _ = ⟨0, true, true, false, false⟩ := by rw [hr, carry.2 le_rfl, zero.2 rfl, hn, hv]

end Sys2Proof.Machine
end

section
/-!
PROOFS. The host's operations (60_exceptions.md R144, 70_reset_and_hazards.md R149): pushes and pops over a word access
that is refused at 0xFFFF, and the loader as byte stores one after another.
-/

namespace Sys2Proof.Machine

open Sys2Proof Sys2Proof.Safety

/-! ## Pushes and pops -/

theorem hostWordAccess_of_ne_top {α : Type} {a : Word} (h : a ≠ 0xFFFF) (x : α) : hostWordAccess a x = .ok x := if_neg h

theorem hostWordAccess_top {α : Type} {a : Word} (h : a = 0xFFFF) (x : α) :
    hostWordAccess a x = .error (.wordAccessAtTop 0xFFFF) := by
  subst h
  rfl

theorem sp_pushed (s : State) (v : Word) : (pushed s v).reg 1 = s.reg 1 - 2 := by simp [pushed]

theorem hostPushWord_eq {s : State} (h : s.reg 1 - 2 ≠ 0xFFFF) (v : Word) : hostPushWord s v = .ok (pushed s v) :=
  hostWordAccess_of_ne_top h _

/-- A host's byte push is the word push of PUSH.B (60_exceptions.md R144). -/
theorem hostPushByte_eq (s : State) (v : Byte) :
    hostPushByte s v = hostPushWord (draw8 s).2 (wordOfBytes v (Config.draw8 s.draws)) := rfl

/-- What was pushed stands at the new SP (43_unary.md R122). -/
theorem wordAt_pushed {s : State} (hm : Memory.wf s.mem) (v : Word) : (pushed s v).wordAt (s.reg 1 - 2) = v :=
  wordAt_setWord_same (s := s.setReg 1 (s.reg 1 - 2)) hm

theorem byteAt_pushed_low {s : State} (hm : Memory.wf s.mem) (v : Word) :
    (pushed s v).byteAt (s.reg 1 - 2) = lowByte v :=
  byteAt_setWord_low (s := s.setReg 1 (s.reg 1 - 2)) hm

/-- A pop moves SP up by 2, so it undoes the move of a push. -/
theorem sp_after_pop (s : State) (v : Word) : ((pushed s v).setReg 1 ((pushed s v).reg 1 + 2)).reg 1 = s.reg 1 := by
  rw [reg_setReg, if_pos rfl, sp_pushed, BitVec.sub_add_cancel]

/-- Settles O59: a pop looks where the push stored, and both are refused exactly at 0xFFFF. -/
theorem hostPushPopRoundTrips : Obligations.HostPushPopRoundTrips := by
  intro s
  refine ⟨fun hm hsp => ⟨fun v => ?word, fun v => ?byte⟩, fun hsp v b => ?pushTop, fun hsp => ?popTop, fun v => rfl⟩
  case word =>
    refine ⟨pushed s v, _, hostPushWord_eq hsp v, sp_pushed s v, ?_, sp_after_pop s v⟩
    rw [hostPopWord, sp_eq, sp_pushed, hostWordAccess_of_ne_top hsp, wordAt_pushed hm]
  case byte =>
    rw [hostPushByte_eq]
    have stored : (pushed (draw8 s).2 (wordOfBytes v (Config.draw8 s.draws))).byteAt (s.reg 1 - 2) = v :=
      (byteAt_pushed_low (s := (draw8 s).2) hm _).trans (lowByte_wordOfBytes ..)
    refine ⟨_, hostPushWord_eq (s := (draw8 s).2) hsp _, sp_pushed .., ?_, sp_after_pop ..⟩
    rw [hostPopByte, sp_eq, sp_pushed]
    exact stored
  case pushTop => exact ⟨hostWordAccess_top hsp _, hostWordAccess_top hsp _⟩
  case popTop => exact hostWordAccess_top hsp _

/-! ## The loader -/

theorem regs_placeBytes (s : State) (a : Word) (bytes : List Byte) :
    (s.placeBytes a bytes).regs = s.regs ∧ (s.placeBytes a bytes).written = s.written ∧
      (s.placeBytes a bytes).draws = s.draws := by
  induction bytes generalizing s a with
  | nil => exact ⟨rfl, rfl, rfl⟩
  | cons b rest ih => exact ih (s.setByte a b) (a + 1)

/-- The address after the first byte, counted from it. -/
theorem succ_add_ofNat (a : Word) (k : Nat) : a + 1 + BitVec.ofNat 16 k = a + BitVec.ofNat 16 (k + 1) := by
  rw [BitVec.ofNat_add, BitVec.add_assoc, BitVec.add_comm (BitVec.ofNat 16 k)]
  rfl

theorem byteAt_placeBytes_ne {s : State} {a b : Word} {bytes : List Byte}
    (h : ∀ k, k < bytes.length → b ≠ a + BitVec.ofNat 16 k) : (s.placeBytes a bytes).byteAt b = s.byteAt b := by
  induction bytes generalizing s a with
  | nil => rfl
  | cons x rest ih =>
    have first : b ≠ a := by simpa using h 0 (by simp)
    have later : ∀ k, k < rest.length → b ≠ a + 1 + BitVec.ofNat 16 k := fun k hk => by
      rw [succ_add_ofNat]
      exact h (k + 1) (by simpa using hk)
    exact (ih later).trans (byteAt_setByte_ne first)

/-- An image of at most 65536 bytes does not overwrite itself, so each byte stands at its address. -/
theorem byteAt_placeBytes {s : State} {a : Word} {bytes : List Byte} (hm : Memory.wf s.mem)
    (hlen : bytes.length ≤ 0x10000) (k : Nat) (hk : k < bytes.length) :
    (s.placeBytes a bytes).byteAt (a + BitVec.ofNat 16 k) = bytes[k] := by
  induction bytes generalizing s a k with
  | nil => cases hk
  | cons x rest ih =>
    have hrest : rest.length + 1 ≤ 0x10000 := hlen
    cases k with
    | zero =>
      have apart : ∀ k, k < rest.length → a + BitVec.ofNat 16 0 ≠ a + 1 + BitVec.ofNat 16 k := fun k hk => by
        bv_omega
      rw [State.placeBytes, byteAt_placeBytes_ne apart]
      simpa using byteAt_setByte_same hm
    | succ k =>
      rw [← succ_add_ofNat]
      exact ih (wf_setByte hm) (by omega) k (by simpa using hk)

/-- Settles O60: a fitting image is placed byte by byte, and placing bytes touches nothing else. -/
theorem loadCopiesAnImageThatFits : Obligations.LoadCopiesAnImageThatFits := by
  intro codeStart image s hm
  refine ⟨fun fits => ⟨s.placeBytes codeStart image, if_pos fits, byteAt_placeBytes hm (by omega),
    fun _ => byteAt_placeBytes_ne, regs_placeBytes s codeStart image⟩, fun large => if_neg (by omega)⟩

end Sys2Proof.Machine
end
